-- ==== Sys2Proof/Machine/Parameters.lean ====
section
/-! DEFINITION. The one configuration record: every size and literal of rule R6, by its name there. "A model should
take them from one configuration record so that an audit of a literal changes one place" (R6): the record's value is
`Config.values`, each `Config.<parameter>` below reads its field, and the types and operations of the model are
written with those names.

`reduceProj%` and `delta%` write the field's value into the term that is being defined. So a type such as
`BitVec (delta% Config.xlen)` IS `BitVec 8`, and a proof about it meets a numeral. -/

namespace Sys2Proof

/-- The thirteen parameters of rule R6. -/
structure Config.Parameters where
  /-- `XLEN`: width of a general register -/
  xlen : Nat
  /-- `NREG`: number of general registers -/
  nreg : Nat
  /-- `FLAG_INDEX`: index of the flag register -/
  flagIndex : Nat
  /-- `ADDR_BITS`: width of an Address and of the program counter -/
  addrBits : Nat
  /-- `MEM_SIZE`: bytes of memory -/
  memSize : Nat
  /-- `I_BITS`: width of the index register -/
  iBits : Nat
  /-- `STACK_DEPTH`: call-stack entries -/
  stackDepth : Nat
  /-- `ILEN`: bytes of an instruction, and the advance of the program counter -/
  ilen : Nat
  /-- `HALT_WORD`: the halt instruction -/
  haltWord : Nat
  /-- `SHR_FLAG_BIT`: the bit of the old value that shift right copies to the flag -/
  shrFlagBit : Nat
  /-- `SHL_FLAG_BIT`: the bit of the old value that shift left copies to the flag -/
  shlFlagBit : Nat
  /-- `SUB_FLAG_ON_BORROW`: the flag after a subtraction that borrowed; 0 otherwise -/
  subFlagOnBorrow : Nat
  /-- `ADD_FLAG_ON_CARRY`: the flag after a register add whose sum exceeded 255; 0 otherwise -/
  addFlagOnCarry : Nat
deriving DecidableEq, Repr

/-- The values of rule R6, "normative for this hardware": the one place that holds them. -/
def Config.values : Config.Parameters where
  xlen := 8
  nreg := 16
  flagIndex := 15
  addrBits := 12
  memSize := 4096
  iBits := 16
  stackDepth := 16
  ilen := 2
  haltWord := 0x0000
  shrFlagBit := 7
  shlFlagBit := 0
  subFlagOnBorrow := 1
  addFlagOnCarry := 1

/-- `XLEN` (R6). -/
abbrev Config.xlen : Nat := reduceProj% (delta% Config.values).xlen
/-- `NREG` (R6). -/
abbrev Config.nreg : Nat := reduceProj% (delta% Config.values).nreg
/-- `FLAG_INDEX` (R6). -/
abbrev Config.flagIndex : Nat := reduceProj% (delta% Config.values).flagIndex
/-- `ADDR_BITS` (R6). -/
abbrev Config.addrBits : Nat := reduceProj% (delta% Config.values).addrBits
/-- `MEM_SIZE` (R6); the valid linear indices are the numbers below it (R52). -/
abbrev Config.memSize : Nat := reduceProj% (delta% Config.values).memSize
/-- `I_BITS` (R6). -/
abbrev Config.iBits : Nat := reduceProj% (delta% Config.values).iBits
/-- `STACK_DEPTH` (R6). -/
abbrev Config.stackDepth : Nat := reduceProj% (delta% Config.values).stackDepth
/-- `ILEN` (R6). -/
abbrev Config.ilen : Nat := reduceProj% (delta% Config.values).ilen
/-- `HALT_WORD` (R6). -/
abbrev Config.haltWord : Nat := reduceProj% (delta% Config.values).haltWord
/-- `SHR_FLAG_BIT` (R6). -/
abbrev Config.shrFlagBit : Nat := reduceProj% (delta% Config.values).shrFlagBit
/-- `SHL_FLAG_BIT` (R6). -/
abbrev Config.shlFlagBit : Nat := reduceProj% (delta% Config.values).shlFlagBit
/-- `SUB_FLAG_ON_BORROW` (R6). -/
abbrev Config.subFlagOnBorrow : Nat := reduceProj% (delta% Config.values).subFlagOnBorrow
/-- `ADD_FLAG_ON_CARRY` (R6). -/
abbrev Config.addFlagOnCarry : Nat := reduceProj% (delta% Config.values).addFlagOnCarry

end Sys2Proof
end

