-- ==== Sys2Proof/Word.lean ====
section
/-! DEFINITION. The word types of the core ISA and the closed enumeration of its register names.
Every type below holds what the spec treats as bits: register bytes (R20), instruction words (R70),
Addresses (R25, R27), 4-bit instruction fields (R72). The widths that R6 names are taken from its record. -/

namespace Sys2Proof

/-- A value of a general register (R20), and equally a memory byte and an immediate `kk` (R38, R73). -/
abbrev Byte := BitVec (delta% Config.xlen)

/-- An instruction word, "exactly 16 bits" (R70). -/
abbrev Word := BitVec 16

/-- A value of the index register (R29). -/
abbrev Index := BitVec (delta% Config.iBits)

/-- An Address: the program counter, a call-stack slot, an operand `nnn` (R25, R27, R30, R74). -/
abbrev Addr := BitVec (delta% Config.addrBits)

/-- A nibble, "a 4-bit field, the natural operand granularity of this instruction set" (R16). -/
abbrev Nibble := BitVec 4

/-- The sixteen register names, a closed enumeration (R20, R88). `VF` is the flag register (R22). -/
inductive Reg where
  | V0 | V1 | V2 | V3 | V4 | V5 | V6 | V7 | V8 | V9 | VA | VB | VC | VD | VE | VF
deriving DecidableEq, Repr, Inhabited

end Sys2Proof
end

