-- ==== Sys2Proof/Config.lean ====
section
/-! DEFINITION. The two parameters the spec leaves open (R7): the launch value of the program counter (R178) and the
external collaborators that serve the seven delegated instructions (R140 to R146). The parameters that are fixed for
this hardware (R6) are the record of Sys2Proof/Machine/Parameters.lean. Nothing here is state. -/

namespace Sys2Proof

/-- The default of the parameter `PC_ENTRY` (R7, R178). A launch takes the entry as an argument; this is the
value the spec gives when the host names none. -/
abbrev Config.pcEntryDefault : Addr := 0x000

/-! ## The collaborators (the parameter `COLLAB`) -/

/-- The request the core presents for a delegated instruction, with its decoded operands (R141). -/
inductive CollabRequest where
  | cls
  | sys (nnn : Addr)
  | jpo (nnn : Addr)
  | rnd (x : Reg) (kk : Byte)
  | drw (x y : Reg) (d : Nibble)
  | key (x : Reg) (kk : Byte)
  | ext (x : Reg) (kk : Byte)
deriving DecidableEq, Repr

/-- What a collaborator may read: the registers, the index register, the provisional program counter and memory
(R142). The call stack, the stack pointer, `RUN` and `FAULT` are not in it: a collaborator cannot read them. -/
structure CollabView where
  /-- `V[0..15]` at the start of the step. -/
  v : Vector Byte (delta% Config.nreg)
  /-- `I` at the start of the step. -/
  i : Index
  /-- `pc` as the collaborator sees it: the provisional `npc`. -/
  pc : Addr
  /-- memory at the start of the step: the listed bytes, an unlisted index reading as zero. -/
  mem : List Host.Cell
deriving DecidableEq, Repr

/-- One write a collaborator asks for (R143). A register or memory index is a plain number: whether it is in range
is the core's check, not the collaborator's (R24, R52, R144). -/
inductive CollabWrite where
  /-- `V[i] <- b` -/
  | reg (i : Nat) (b : Byte)
  /-- `I <- w` -/
  | index (w : Index)
  /-- `pc <- t` -/
  | pc (t : Addr)
  /-- `mem[j] <- b` -/
  | mem (j : Nat) (b : Byte)
deriving DecidableEq, Repr

/-- A collaborator's answer (R143): its writes, or the report that one of its own reads was out of bounds (R144). -/
inductive CollabAnswer where
  | done (writes : List CollabWrite)
  | outOfBounds
deriving DecidableEq, Repr, Inhabited

/-- FREE VALUE (log entry 2). The answer of the attached collaborators to their `n`-th request: the display, the
keypad, the timers and the random source (the spec's `Rng` is part of it, R152) are not described by the spec, so
nothing is known of this constant. It has no body: no proof can see a value of it. The word is the raw instruction
word, which R141 makes available to a collaborator beside the decoded request. The draw number `n` is plain data in
State, so that two requests that look alike may be answered differently ("a model treats its answer as a draw",
R143). -/
opaque Config.collab (n : Nat) (req : CollabRequest) (word : Word) (view : CollabView) : CollabAnswer

end Sys2Proof
end

