-- ==== Sys2Proof/Machine/Address.lean ====
section
/-! DEFINITION. The address unit: packing and unpacking of nibbles, arithmetic modulo 4096, comparison
(R10, R27, R28). -/

namespace Sys2Proof.Machine

/-- Packs three nibbles high to low: `n1*256 + n2*16 + n3` (R27). -/
def addrPack (n1 n2 n3 : Nibble) : Addr := n1 ++ n2 ++ n3

/-- `n1 = a[11:8]` (R27). -/
def addrN1 (a : Addr) : Nibble := a.extractLsb' 8 4
/-- `n2 = a[7:4]` (R27). -/
def addrN2 (a : Addr) : Nibble := a.extractLsb' 4 4
/-- `n3 = a[3:0]` (R27). -/
def addrN3 (a : Addr) : Nibble := a.extractLsb' 0 4

/-- An integer becomes an Address by keeping its low 12 bits (R27). -/
def addrOfNat (n : Nat) : Addr := BitVec.ofNat (delta% Config.addrBits) n

/-- An Address becomes a wider integer by zero extension: its linear form, which indexes memory (R27, R56). -/
def addrIndex (a : Addr) : Nat := a.toNat

/-- `addr_add(a, k) = (a + k) mod 4096` (R28). -/
def addrAdd (a : Addr) (k : Nat) : Addr := addrOfNat (a.toNat + k)

/-- `addr_sub(a, k) = (a - k) mod 4096` with the non-negative modulus (R28, R186). -/
def addrSub (a : Addr) (k : Nat) : Addr := BitVec.ofInt (delta% Config.addrBits) ((a.toNat : Int) - (k : Int))

/-- Addresses "compare by integer value" (R28). -/
def addrLt (a b : Addr) : Bool := decide (a.toNat < b.toNat)

/-- Addresses "compare by integer value" (R28). -/
def addrEq (a b : Addr) : Bool := decide (a.toNat = b.toNat)

end Sys2Proof.Machine
end

