-- ==== Sys2Proof/Machine/Registers.lean ====
section
/-! DEFINITION. The numeric mapping of the register names (R88) and the 4-bit field that names a register (R24,
R75). -/

namespace Sys2Proof

/-- The sixteen names in index order (R88). -/
def Reg.all : Vector Reg (delta% Config.nreg) :=
  #v[.V0, .V1, .V2, .V3, .V4, .V5, .V6, .V7, .V8, .V9, .VA, .VB, .VC, .VD, .VE, .VF]

/-- The documented numeric mapping, a bijection onto 0 to 15 (R88). -/
def Reg.index : Reg → Fin (delta% Config.nreg)
  | .V0 => 0 | .V1 => 1 | .V2 => 2 | .V3 => 3 | .V4 => 4 | .V5 => 5 | .V6 => 6 | .V7 => 7
  | .V8 => 8 | .V9 => 9 | .VA => 10 | .VB => 11 | .VC => 12 | .VD => 13 | .VE => 14 | .VF => 15

/-- The register of an index (R88). -/
def Reg.ofIndex (k : Fin (delta% Config.nreg)) : Reg := Reg.all[k]

/-- The register an instruction field names: "field value `i` names `V[i]`" (R75). -/
def Reg.ofNibble (n : Nibble) : Reg := Reg.ofIndex n.toFin

/-- The field value that names a register (R75). -/
def Reg.nibble (r : Reg) : Nibble := BitVec.ofFin r.index

/-- The register of an index that a collaborator supplies: none at `NREG` or above, the register half of the bounds
check (R24, R144). -/
def Reg.ofNat? (k : Nat) : Option Reg := if h : k < delta% Config.nreg then some (Reg.ofIndex ⟨k, h⟩) else none

/-- The flag register, the slot `FLAG_INDEX` (R6, R22). -/
def Reg.flag : Reg := Reg.ofIndex ⟨delta% Config.flagIndex, by decide⟩

end Sys2Proof
end

