-- ==== Sys2Proof/Machine/Operands.lean ====
section
/-! DEFINITION. The one instruction format: how the fetched bytes make a word and how the word is split into its
fields and derived operands (R53, R71 to R75). -/

namespace Sys2Proof.Machine

/-- `w = hi ++ lo`: the high byte is the first of the pair (R53, R71). -/
def wordOfBytes (hi lo : Byte) : Word := hi ++ lo

/-- `w[15:8]`, the byte stored at the lower index (R53, R71). -/
def highByte (w : Word) : Byte := w.extractLsb' 8 8

/-- `w[7:0]`, the byte stored at the higher index (R53, R71). -/
def lowByte (w : Word) : Byte := w.extractLsb' 0 8

/-- `c = w[15:12]`, the family selector (R72). -/
def fieldC (w : Word) : Nibble := w.extractLsb' 12 4
/-- `x = w[11:8]` (R72). -/
def fieldX (w : Word) : Nibble := w.extractLsb' 8 4
/-- `y = w[7:4]` (R72). -/
def fieldY (w : Word) : Nibble := w.extractLsb' 4 4
/-- `d = w[3:0]` (R72). -/
def fieldD (w : Word) : Nibble := w.extractLsb' 0 4

/-- The 8-bit immediate "built from the low two nibbles": `kk = y ++ d` (R73). -/
def fieldKK (w : Word) : Byte := fieldY w ++ fieldD w

/-- The 12-bit address "built from the low three nibbles": `nnn = x ++ y ++ d` (R74). -/
def fieldNNN (w : Word) : Addr := addrPack (fieldX w) (fieldY w) (fieldD w)

/-- The register operand in the `x` field (R75). -/
def operandX (w : Word) : Reg := Reg.ofNibble (fieldX w)

/-- The register operand in the `y` field (R75). -/
def operandY (w : Word) : Reg := Reg.ofNibble (fieldY w)

end Sys2Proof.Machine
end

