-- ==== Sys2Proof/Syntax.lean ====
section
/-! DEFINITION. The instructions: one constructor per row of spec/opcode_table.json, in the table's order (R76),
with the operands of its shape (R75). The mnemonics are those of R86. -/

namespace Sys2Proof

/-- The 27 instructions of the core ISA. `x` and `y` name registers, `kk` is the 8-bit immediate, `nnn` the 12-bit
address, `d` the 4-bit count of `DRW`. `SHR` and `SHL` carry the `y` field their encoding has and ignores (R81). -/
inductive Instr where
  /-- `0000` (R105) -/
  | halt
  /-- `00E0` (R106) -/
  | cls
  /-- `00EE` (R110) -/
  | ret
  /-- `0nnn` (R107) -/
  | sys (nnn : Addr)
  /-- `1nnn` (R111) -/
  | jp (nnn : Addr)
  /-- `2nnn` (R112) -/
  | call (nnn : Addr)
  /-- `3xkk` (R113) -/
  | sei (x : Reg) (kk : Byte)
  /-- `4xkk` (R114) -/
  | snei (x : Reg) (kk : Byte)
  /-- `5xy0` (R115) -/
  | ser (x y : Reg)
  /-- `6xkk` (R120) -/
  | ldi (x : Reg) (kk : Byte)
  /-- `7xkk` (R121) -/
  | addi (x : Reg) (kk : Byte)
  /-- `8xy0` (R127) -/
  | mov (x y : Reg)
  /-- `8xy1` (R128) -/
  | or (x y : Reg)
  /-- `8xy2` (R129) -/
  | and (x y : Reg)
  /-- `8xy3` (R130) -/
  | xor (x y : Reg)
  /-- `8xy4` (R131) -/
  | add (x y : Reg)
  /-- `8xy5` (R132) -/
  | sub (x y : Reg)
  /-- `8xy6` (R133) -/
  | shr (x y : Reg)
  /-- `8xy7` (R134) -/
  | subn (x y : Reg)
  /-- `8xyE` (R135) -/
  | shl (x y : Reg)
  /-- `9xy0` (R116) -/
  | sner (x y : Reg)
  /-- `Annn` (R122) -/
  | ldix (nnn : Addr)
  /-- `Bnnn` (R147) -/
  | jpo (nnn : Addr)
  /-- `Cxkk` (R148) -/
  | rnd (x : Reg) (kk : Byte)
  /-- `Dxyd` (R149) -/
  | drw (x y : Reg) (d : Nibble)
  /-- `Exkk` (R150) -/
  | key (x : Reg) (kk : Byte)
  /-- `Fxkk` (R151) -/
  | ext (x : Reg) (kk : Byte)
deriving DecidableEq, Repr

end Sys2Proof
end

