-- ==== Sys2Proof/WellFormed.lean ====
section
/-! DEFINITION. Which instructions have an encoding of their own. Every operand type already holds exactly the
values its field admits (R72 to R75), so the one check left is R83's: `SYS` with `nnn` 0x000, 0x0E0 or 0x0EE has
no word, because those three words are `HALT`, `CLS` and `RET`. -/

namespace Sys2Proof

/-- The three operands an assembler refuses for `SYS` (R83). -/
def sysOperandTaken (nnn : Addr) : Bool :=
  nnn == 0x000 || nnn == 0x0E0 || nnn == 0x0EE

/-- An instruction that some word encodes. -/
def wellFormed : Instr → Bool
  | .sys nnn => !sysOperandTaken nnn
  | .halt | .cls | .ret | .jp _ | .call _ | .sei _ _ | .snei _ _ | .ser _ _ | .ldi _ _ | .addi _ _
  | .mov _ _ | .or _ _ | .and _ _ | .xor _ _ | .add _ _ | .sub _ _ | .shr _ _ | .subn _ _ | .shl _ _
  | .sner _ _ | .ldix _ | .jpo _ | .rnd _ _ | .drw _ _ _ | .key _ _ | .ext _ _ => true

end Sys2Proof
end

