-- ==== Sys2Proof/Decode.lean ====
section
/-! DEFINITION. The ordered dispatch table (R76), the decoder, total on any word and any bytes (R79, R82), and the
encoder of every instruction (R83). -/

namespace Sys2Proof

open Machine

/-- One row of the dispatch table: `(mask, expected-bits, handler)` (R76). The handler here only assembles the
operands of the row's shape from the word (R75); what the instruction does is the machine's. -/
structure DispatchRow where
  mnemonic : String
  mask : Word
  expected : Word
  build : Word → Instr

/-- Family 0. The three exact rows come first: "This ordering is a correctness requirement" (R77, R185). -/
def dispatchFamily0 : List DispatchRow :=
  [ ⟨"HALT", 0xFFFF, BitVec.ofNat 16 Config.haltWord, fun _ => .halt⟩,
    ⟨"CLS",  0xFFFF, 0x00E0, fun _ => .cls⟩,
    ⟨"RET",  0xFFFF, 0x00EE, fun _ => .ret⟩,
    ⟨"SYS",  0xF000, 0x0000, fun w => .sys (fieldNNN w)⟩ ]

/-- Families 1 to 7 (R76, rows 5 to 11). -/
def dispatchFamilies1to7 : List DispatchRow :=
  [ ⟨"JP",   0xF000, 0x1000, fun w => .jp (fieldNNN w)⟩,
    ⟨"CALL", 0xF000, 0x2000, fun w => .call (fieldNNN w)⟩,
    ⟨"SEI",  0xF000, 0x3000, fun w => .sei (operandX w) (fieldKK w)⟩,
    ⟨"SNEI", 0xF000, 0x4000, fun w => .snei (operandX w) (fieldKK w)⟩,
    ⟨"SER",  0xF00F, 0x5000, fun w => .ser (operandX w) (operandY w)⟩,
    ⟨"LDI",  0xF000, 0x6000, fun w => .ldi (operandX w) (fieldKK w)⟩,
    ⟨"ADDI", 0xF000, 0x7000, fun w => .addi (operandX w) (fieldKK w)⟩ ]

/-- Family 8, the ALU (R76, rows 12 to 20). -/
def dispatchFamily8 : List DispatchRow :=
  [ ⟨"MOV",  0xF00F, 0x8000, fun w => .mov (operandX w) (operandY w)⟩,
    ⟨"OR",   0xF00F, 0x8001, fun w => .or (operandX w) (operandY w)⟩,
    ⟨"AND",  0xF00F, 0x8002, fun w => .and (operandX w) (operandY w)⟩,
    ⟨"XOR",  0xF00F, 0x8003, fun w => .xor (operandX w) (operandY w)⟩,
    ⟨"ADD",  0xF00F, 0x8004, fun w => .add (operandX w) (operandY w)⟩,
    ⟨"SUB",  0xF00F, 0x8005, fun w => .sub (operandX w) (operandY w)⟩,
    ⟨"SHR",  0xF00F, 0x8006, fun w => .shr (operandX w) (operandY w)⟩,
    ⟨"SUBN", 0xF00F, 0x8007, fun w => .subn (operandX w) (operandY w)⟩,
    ⟨"SHL",  0xF00F, 0x800E, fun w => .shl (operandX w) (operandY w)⟩ ]

/-- Families 9 to F (R76, rows 21 to 27). Families B to F are routed on `c` alone (R80). -/
def dispatchFamilies9toF : List DispatchRow :=
  [ ⟨"SNER", 0xF00F, 0x9000, fun w => .sner (operandX w) (operandY w)⟩,
    ⟨"LDIX", 0xF000, 0xA000, fun w => .ldix (fieldNNN w)⟩,
    ⟨"JPO",  0xF000, 0xB000, fun w => .jpo (fieldNNN w)⟩,
    ⟨"RND",  0xF000, 0xC000, fun w => .rnd (operandX w) (fieldKK w)⟩,
    ⟨"DRW",  0xF000, 0xD000, fun w => .drw (operandX w) (operandY w) (fieldD w)⟩,
    ⟨"KEY",  0xF000, 0xE000, fun w => .key (operandX w) (fieldKK w)⟩,
    ⟨"EXT",  0xF000, 0xF000, fun w => .ext (operandX w) (fieldKK w)⟩ ]

/-- The whole table, 27 rows in the spec's order (R76). -/
def dispatchTable : List DispatchRow :=
  dispatchFamily0 ++ dispatchFamilies1to7 ++ dispatchFamily8 ++ dispatchFamilies9toF

/-- A word selects a row when `(w & mask) = match` (R76). -/
def DispatchRow.selects (r : DispatchRow) (w : Word) : Bool := (w &&& r.mask) == r.expected

/-- The first row a word selects, if any (R76, R94). -/
def dispatchRow? (w : Word) : Option DispatchRow := dispatchTable.find? (fun r => r.selects w)

/-- The instruction a word stands for; `none` is the verdict `UnimplementedOpcode(w)` (R79, R82). -/
def decodeWord (w : Word) : Option Instr := (dispatchRow? w).map (fun r => r.build w)

/-- What the decoder reads from a list of bytes: an instruction and the bytes after it, or a rejection by name. -/
inductive DecodeResult where
  | instr (i : Instr) (rest : List Byte)
  /-- No dispatch row matches: the word is the payload of `UnimplementedOpcode` (R79). -/
  | unimplementedOpcode (code : Word)
  /-- Fewer than the two bytes every instruction has (R70). -/
  | truncated
deriving DecidableEq, Repr

/-- The decoder on bytes, high byte first (R53, R71); total (R82). -/
def decodeBytes : List Byte → DecodeResult
  | hi :: lo :: rest =>
    match decodeWord (wordOfBytes hi lo) with
    | some i => .instr i rest
    | none => .unimplementedOpcode (wordOfBytes hi lo)
  | [_] => .truncated
  | [] => .truncated

/-- The decoder on a row of the opcode table: a word whose bits are numbered as the table numbers them. Every
instruction is one 16-bit word, whose bit 0 is the least significant bit; it is laid out high byte first, as the
hardware stores it, and read back by `decodeBytes`. -/
def decodeTableWord (nbits w : Nat) : Option Instr :=
  let word : Word := BitVec.ofNat 16 (w % 2 ^ nbits)
  match decodeBytes [highByte word, lowByte word] with
  | .instr i _ => some i
  | .unimplementedOpcode _ => none
  | .truncated => none

/-! ## The encoder (R83) -/

/-- Shape `NNN`: family nibble, then the address (R72, R83). -/
def encodeNNN (c : Nibble) (nnn : Addr) : Word := c ++ nnn

/-- Shape `XKK`: family nibble, register field, immediate (R72, R83). -/
def encodeXKK (c : Nibble) (x : Reg) (kk : Byte) : Word := c ++ x.nibble ++ kk

/-- Shapes `XYD` and `XYN`: family nibble, two register fields, last nibble (R72, R83). -/
def encodeXYD (c : Nibble) (x y : Reg) (d : Nibble) : Word := c ++ x.nibble ++ y.nibble ++ d

/-- The word of an instruction (R83). Meaningful for well-formed instructions. -/
def encode : Instr → Word
  | .halt => BitVec.ofNat 16 Config.haltWord
  | .cls => 0x00E0
  | .ret => 0x00EE
  | .sys nnn => encodeNNN 0x0 nnn
  | .jp nnn => encodeNNN 0x1 nnn
  | .call nnn => encodeNNN 0x2 nnn
  | .sei x kk => encodeXKK 0x3 x kk
  | .snei x kk => encodeXKK 0x4 x kk
  | .ser x y => encodeXYD 0x5 x y 0x0
  | .ldi x kk => encodeXKK 0x6 x kk
  | .addi x kk => encodeXKK 0x7 x kk
  | .mov x y => encodeXYD 0x8 x y 0x0
  | .or x y => encodeXYD 0x8 x y 0x1
  | .and x y => encodeXYD 0x8 x y 0x2
  | .xor x y => encodeXYD 0x8 x y 0x3
  | .add x y => encodeXYD 0x8 x y 0x4
  | .sub x y => encodeXYD 0x8 x y 0x5
  | .shr x y => encodeXYD 0x8 x y 0x6
  | .subn x y => encodeXYD 0x8 x y 0x7
  | .shl x y => encodeXYD 0x8 x y 0xE
  | .sner x y => encodeXYD 0x9 x y 0x0
  | .ldix nnn => encodeNNN 0xA nnn
  | .jpo nnn => encodeNNN 0xB nnn
  | .rnd x kk => encodeXKK 0xC x kk
  | .drw x y d => encodeXYD 0xD x y d
  | .key x kk => encodeXKK 0xE x kk
  | .ext x kk => encodeXKK 0xF x kk

/-- The two bytes of an instruction, high byte first (R53, R83). -/
def encodeBytes (i : Instr) : List Byte := [highByte (encode i), lowByte (encode i)]

end Sys2Proof
end

