-- ==== Sys2Proof/Machine/Flags.lean ====
section
/-! DEFINITION. The 8-bit results and the flag values of the ALU (R37, R131 to R136). Each flag value is a whole
byte, 0x00 or 0x01 (R22). -/

namespace Sys2Proof.Machine

/-- `trunc_8(a + b)`: the exact sum, narrowed at the end (R121, R131, R136). -/
def addResult (a b : Byte) : Byte := BitVec.ofNat (delta% Config.xlen) (a.toNat + b.toNat)

/-- `ADD_FLAG_ON_CARRY` if the exact sum exceeds 255, else 0 (R131). -/
def carryFlag (a b : Byte) : Byte := if a.toNat + b.toNat > 2 ^ (delta% Config.xlen) - 1 then BitVec.ofNat _ Config.addFlagOnCarry else 0

/-- `trunc_8(a - b + 256)`, that is `(a - b) mod 256` (R132, R136). -/
def subResult (a b : Byte) : Byte := BitVec.ofNat (delta% Config.xlen) (a.toNat + 2 ^ (delta% Config.xlen) - b.toNat)

/-- `SUB_FLAG_ON_BORROW` if the minuend `a` is less than the subtrahend `b`, else 0 (R132, R134). The flag is 1 on
borrow, not its complement. -/
def borrowFlag (a b : Byte) : Byte := if a.toNat < b.toNat then BitVec.ofNat _ Config.subFlagOnBorrow else 0

/-- Logical shift right by exactly one (R133, R136). -/
def shrResult (a : Byte) : Byte := a >>> 1

/-- `trunc_8(a << 1)`, logical shift left by exactly one (R135, R136). -/
def shlResult (a : Byte) : Byte := a <<< 1

/-- One bit of the value before the shift, as 0x00 or 0x01 (R133, R135). -/
def bitFlag (k : Nat) (a : Byte) : Byte := if a.getLsbD k then 1 else 0

/-- Shift right copies bit 7 of the old value, NOT the bit shifted out (R133, conflict C11). -/
def shrFlag (a : Byte) : Byte := bitFlag Config.shrFlagBit a

/-- Shift left copies bit 0 of the old value, NOT the bit shifted out (R135, conflict C11). -/
def shlFlag (a : Byte) : Byte := bitFlag Config.shlFlagBit a

end Sys2Proof.Machine
end

