-- ==== Sys2Proof/Machine/State.lean ====
section
/-! DEFINITION. The state of the machine, as plain data: everything the spec gives the core (10_state.md) and one
field of the model's own, the collaborator port. -/

namespace Sys2Proof.Machine

/-- Memory in canonical form: the listed bytes, at strictly rising indices below 4096, none of them equal to what
an unlisted index reads as (R38, R41; `Memory.wf` in Ops.lean). -/
abbrev Memory := List Host.Cell

/-- `RUN`, the engine's state (R34, R90). -/
inductive RunState where
  | running | halted | faulted
deriving DecidableEq, Repr

/-- `FAULT`, the fault record (R35, R155). A fault of the spec is a STATE of this machine, entered by a step that
answers a next state (R161), not a stop of the model. -/
inductive FaultRecord where
  | none
  /-- `CALL` with `sp = 16` (R156) -/
  | stackOverflow
  /-- `RET` with `sp = 0` (R157) -/
  | stackUnderflow
  /-- the fetch at 0xFFF, or an index out of range from a collaborator (R158) -/
  | outOfBounds
  /-- a fetched word that no dispatch row matches, with that word (R159) -/
  | unimplementedOpcode (code : Word)
deriving DecidableEq, Repr

/-- MODEL'S OWN FIELD (log entries 1 to 3): what is attached to the collaborator port. The spec's parameter `COLLAB`
is not state; the port holds what the model needs to draw answers of it. -/
inductive CollabPort where
  /-- Nothing attached: "with none attached the behaviour is `COLLAB_NULL`" (R182, R145). -/
  | detached
  /-- Collaborators attached. A delegated instruction takes the first of the `mocked` answers, if there is one (a
  replaceable source for tests, R146, R152), and otherwise draw number `draws` of the free value
  `Config.collab`. -/
  | attached (mocked : List CollabAnswer) (draws : Nat)
deriving DecidableEq, Repr

/-- The whole state of the core (R18, 10_state.md). -/
structure State where
  /-- `V[0..15]` (R20); `V[15]` is the flag register (R22) -/
  v : Vector Byte (delta% Config.nreg)
  /-- the program counter (R25) -/
  pc : Addr
  /-- the index register `I` (R29) -/
  i : Index
  /-- the call stack `stack[0..15]` (R30) -/
  stack : Vector Addr (delta% Config.stackDepth)
  /-- the stack pointer, 0 to 16: the count of live entries (R31) -/
  sp : Fin ((delta% Config.stackDepth) + 1)
  /-- the 4096 bytes of memory (R38, R50) -/
  mem : Memory
  /-- `RUN` (R34) -/
  run : RunState
  /-- `FAULT` (R35) -/
  fault : FaultRecord
  /-- the model's own field (log entries 1 to 3) -/
  collab : CollabPort
deriving DecidableEq, Repr

/-- The reset state: "zero-initialized, before any program bytes are written" (R41, R175). Memory lists nothing, so
every byte reads zero. No collaborator is attached (log entry 1). -/
def State.reset : State where
  v := Vector.replicate _ 0
  pc := 0
  i := 0
  stack := Vector.replicate _ 0
  sp := 0
  mem := []
  run := .running
  fault := .none
  collab := .detached

/-- The reasons a step can stop in a fault of the MODEL. There is none: each of the spec's four faults has an entry
that the spec describes (R161) and is taken as a next state, and a step in a terminal state changes nothing (R98).
Being empty, it is raised by nobody: safe. -/
inductive Fault where
deriving DecidableEq, Repr

/-- The reasons the model can refuse an instruction. -/
inductive Refusal where
  /-- An instruction whose meaning is not written yet. Raised by no arm of `exec` today; raising it would be safe,
  since nothing can be proved of what follows it. -/
  | notModelled (mnemonic : String)
deriving DecidableEq, Repr

end Sys2Proof.Machine
end

