-- ==== Sys2Proof/Machine/Ops.lean ====
section
/-! DEFINITION. The named operations of the machine over registers, memory, the call stack and the program counter,
the fetch, and fault entry. Every meaning is written with these. -/

namespace Sys2Proof.Machine

/-! ## Registers -/

/-- A read of `V[r]` (R14, R20). No register is hard-wired (R21). -/
def State.reg (s : State) (r : Reg) : Byte := s.v[r.index]

/-- A write of `V[r]` (R14, R20). -/
def State.setReg (s : State) (r : Reg) (b : Byte) : State := { s with v := s.v.set r.index b }

/-- The two writes of a flag-writing instruction: the result to `V[x]`, then the flag value to `V[15]`. With
`x = 15` the flag survives and the result is lost (R126, decision D8). -/
def State.setResultAndFlag (s : State) (x : Reg) (result flag : Byte) : State :=
  (s.setReg x result).setReg Reg.flag flag

/-- A write of the index register (R14, R29). -/
def State.setIndex (s : State) (w : Index) : State := { s with i := w }

/-! ## The program counter -/

/-- A write of the program counter (R14). -/
def State.setPc (s : State) (t : Addr) : State := { s with pc := t }

/-- The provisional program counter `npc = addr_add(pc, 2)` (R25, R93). -/
def State.npc (s : State) : Addr := addrAdd s.pc Config.ilen

/-- The advance, made before dispatch and committed only by a step that does not fault (R93, R97). -/
def State.advance (s : State) : State := s.setPc s.npc

/-- The extra advance of a skip: over exactly one more instruction width (R113, R117). It is applied to an
advanced state. -/
def State.skip (s : State) : State := s.setPc s.npc

/-- A skip taken when its condition holds (R113 to R116). -/
def State.skipIf (s : State) (cond : Bool) : State := if cond then s.skip else s

/-! ## The call stack -/

/-- Push: `none` on a full stack, otherwise `stack[sp] <- r` and then `sp <- sp + 1` (R32). -/
def State.push (s : State) (r : Addr) : Option State :=
  if h : s.sp.val < delta% Config.stackDepth then
    some { s with stack := s.stack.set s.sp.val r, sp := ⟨s.sp.val + 1, by omega⟩ }
  else none

/-- Pop: `none` on an empty stack, otherwise `sp <- sp - 1` and the popped value `stack[sp]`, the old top. The slot
keeps its value (R33). -/
def State.pop (s : State) : Option (Addr × State) :=
  if h : 0 < s.sp.val then
    some (s.stack[s.sp.val - 1]'(by omega), { s with sp := ⟨s.sp.val - 1, by omega⟩ })
  else none

/-! ## Memory -/

/-- What an unlisted index reads as: memory is zero after reset (R41, R42). -/
def Memory.unlisted : Byte := 0

/-- The canonical form: strictly rising indices, each an index that exists (R52), no byte equal to what an unlisted
index reads as. -/
abbrev Memory.wf (m : Memory) : Prop :=
  m.Pairwise (fun c d => c.1 < d.1) ∧ ∀ c ∈ m, c.1 < Config.memSize ∧ c.2 ≠ Memory.unlisted

/-- The byte at a linear index (R38, R42). -/
def Memory.read : Memory → Nat → Byte
  | [], _ => Memory.unlisted
  | (k, b) :: rest, a => if k = a then b else Memory.read rest a

/-- Puts a cell before the first listed index above it. -/
def Memory.insert : Memory → Nat → Byte → Memory
  | [], a, b => [(a, b)]
  | (k, c) :: rest, a, b =>
    if a < k then (a, b) :: (k, c) :: rest else (k, c) :: Memory.insert rest a b

/-- The memory after the byte at a linear index is written. Writing what an unlisted index reads as removes the
entry, so equal memories are equal lists. -/
def Memory.write (m : Memory) (a : Nat) (b : Byte) : Memory :=
  let others := m.filter (fun c => c.1 != a)
  if b = Memory.unlisted then others else Memory.insert others a b

/-- Bytes written one after another from a linear index (R65, R66). -/
def Memory.writeBytes : Memory → Nat → List Byte → Memory
  | m, _, [] => m
  | m, a, b :: bs => Memory.writeBytes (Memory.write m a b) (a + 1) bs

/-- The bounds check on `n` bytes from a linear index, made before any byte is used; an index is never reduced
modulo 4096 (R52, R58). -/
def inBounds (a n : Nat) : Bool := decide (a + n ≤ Config.memSize)

/-- `MemRead(a, 1)`; `none` is `OutOfBounds` (R58). -/
def Memory.read1 (m : Memory) (a : Nat) : Option Byte :=
  if inBounds a 1 then some (Memory.read m a) else none

/-- `MemRead(a, 2)`, the first byte in the high bits; `none` is `OutOfBounds` (R58). -/
def Memory.read2 (m : Memory) (a : Nat) : Option Word :=
  if inBounds a 2 then some (wordOfBytes (Memory.read m a) (Memory.read m (a + 1))) else none

/-- `MemWrite(a, 1, v)`; `none` is `OutOfBounds`, with nothing written (R59). -/
def Memory.write1 (m : Memory) (a : Nat) (b : Byte) : Option Memory :=
  if inBounds a 1 then some (Memory.write m a b) else none

/-- `MemWrite(a, 2, v)`, the high byte at `a`; `none` is `OutOfBounds`, with nothing written (R59). -/
def Memory.write2 (m : Memory) (a : Nat) (w : Word) : Option Memory :=
  if inBounds a 2 then some (Memory.writeBytes m a [highByte w, lowByte w]) else none

/-- Fetch: the two bytes at the program counter. The second index is the integer `pc + 1`, so the fetch at 0xFFF is
`OutOfBounds` and does not wrap (R56, R71, R92). -/
def State.fetch (s : State) : Option Word := Memory.read2 s.mem (addrIndex s.pc)

/-! ## Fault entry

There is no return from a fault: only reset leaves the Faulted state (R164). -/

/-- Fault entry: `RUN <- Faulted`, `FAULT <- reason`, and nothing else. It is applied to the state at the START of
the step, so every write the step had prepared, the advance included, is discarded and `pc` is the address of the
faulting instruction (R97, R161). -/
def State.takeFault (s : State) (reason : FaultRecord) : State :=
  { s with run := .faulted, fault := reason }

end Sys2Proof.Machine
end

