-- ==== Sys2Proof/Machine/Alu.lean ====
section
/-! DEFINITION. The ALU's register-to-register instructions, family 8 (44_alu.md). Both operands are read from the
state at the start of the step (R125). -/

namespace Sys2Proof.Machine

/-- `MOV Vx, Vy` (R127). -/
def execMov (x y : Reg) (s : State) : Host.Outcome State Fault Refusal :=
  .next (s.advance.setReg x (s.reg y))

/-- `OR Vx, Vy`; the flag is not written (R128). -/
def execOr (x y : Reg) (s : State) : Host.Outcome State Fault Refusal :=
  .next (s.advance.setReg x (s.reg x ||| s.reg y))

/-- `AND Vx, Vy`; the flag is not written (R129). -/
def execAnd (x y : Reg) (s : State) : Host.Outcome State Fault Refusal :=
  .next (s.advance.setReg x (s.reg x &&& s.reg y))

/-- `XOR Vx, Vy`; the flag is not written (R130). -/
def execXor (x y : Reg) (s : State) : Host.Outcome State Fault Refusal :=
  .next (s.advance.setReg x (s.reg x ^^^ s.reg y))

/-- `ADD Vx, Vy`: sum and carry (R131). -/
def execAdd (x y : Reg) (s : State) : Host.Outcome State Fault Refusal :=
  .next (s.advance.setResultAndFlag x (addResult (s.reg x) (s.reg y)) (carryFlag (s.reg x) (s.reg y)))

/-- `SUB Vx, Vy`: `vx - vy` and borrow (R132). -/
def execSub (x y : Reg) (s : State) : Host.Outcome State Fault Refusal :=
  .next (s.advance.setResultAndFlag x (subResult (s.reg x) (s.reg y)) (borrowFlag (s.reg x) (s.reg y)))

/-- `SHR Vx`: shift right by one, flag from bit 7; the `y` field is ignored (R81, R133). -/
def execShr (x : Reg) (_y : Reg) (s : State) : Host.Outcome State Fault Refusal :=
  .next (s.advance.setResultAndFlag x (shrResult (s.reg x)) (shrFlag (s.reg x)))

/-- `SUBN Vx, Vy`: `vy - vx` and borrow (R134). -/
def execSubn (x y : Reg) (s : State) : Host.Outcome State Fault Refusal :=
  .next (s.advance.setResultAndFlag x (subResult (s.reg y) (s.reg x)) (borrowFlag (s.reg y) (s.reg x)))

/-- `SHL Vx`: shift left by one, flag from bit 0; the `y` field is ignored (R81, R135). -/
def execShl (x : Reg) (_y : Reg) (s : State) : Host.Outcome State Fault Refusal :=
  .next (s.advance.setResultAndFlag x (shlResult (s.reg x)) (shlFlag (s.reg x)))

end Sys2Proof.Machine
end

