-- ==== Sys2Proof/Machine/Control.lean ====
section
/-! DEFINITION. Control transfer: RET, JP, CALL and the four skips (42_control_transfer.md). -/

namespace Sys2Proof.Machine

/-- `RET`: the popped entry becomes `pc`; `StackUnderflow` on an empty stack (R110). -/
def execRet (s : State) : Host.Outcome State Fault Refusal :=
  match s.pop with
  | none => .next (s.takeFault .stackUnderflow)
  | some (t, popped) => .next (popped.setPc t)

/-- `JP nnn`: `pc <- nnn`, absolute (R111). -/
def execJp (nnn : Addr) (s : State) : Host.Outcome State Fault Refusal := .next (s.setPc nnn)

/-- `CALL nnn`: pushes `npc`, the address of the instruction after the call, and jumps; `StackOverflow` on a full
stack (R112). -/
def execCall (nnn : Addr) (s : State) : Host.Outcome State Fault Refusal :=
  match s.push s.npc with
  | none => .next (s.takeFault .stackOverflow)
  | some pushed => .next (pushed.setPc nnn)

/-- `SEI Vx, kk`: skip if equal to the immediate (R113). -/
def execSei (x : Reg) (kk : Byte) (s : State) : Host.Outcome State Fault Refusal :=
  .next (s.advance.skipIf (s.reg x == kk))

/-- `SNEI Vx, kk`: skip if not equal to the immediate (R114). -/
def execSnei (x : Reg) (kk : Byte) (s : State) : Host.Outcome State Fault Refusal :=
  .next (s.advance.skipIf (s.reg x != kk))

/-- `SER Vx, Vy`: skip if the registers are equal (R115). -/
def execSer (x y : Reg) (s : State) : Host.Outcome State Fault Refusal :=
  .next (s.advance.skipIf (s.reg x == s.reg y))

/-- `SNER Vx, Vy`: skip if the registers differ (R116). -/
def execSner (x y : Reg) (s : State) : Host.Outcome State Fault Refusal :=
  .next (s.advance.skipIf (s.reg x != s.reg y))

end Sys2Proof.Machine
end

