-- ==== Sys2Proof/Machine/Collab.lean ====
section
/-! DEFINITION. The collaborator port: the core's whole part in a delegated instruction (R140 to R146). What the
collaborators themselves compute is the free value `Config.collab`. -/

namespace Sys2Proof.Machine

/-- The delegated instruction a request comes from (R141). -/
def requestInstr : CollabRequest → Instr
  | .cls => .cls
  | .sys nnn => .sys nnn
  | .jpo nnn => .jpo nnn
  | .rnd x kk => .rnd x kk
  | .drw x y d => .drw x y d
  | .key x kk => .key x kk
  | .ext x kk => .ext x kk

/-- The raw word, available to a collaborator beside the request (R141). Every bit of a delegated word is an
operand or fixed, so the request determines it. -/
def requestWord (req : CollabRequest) : Word := encode (requestInstr req)

/-- What the collaborator sees: the state at the start of the step, `pc` reading the provisional `npc` (R142). -/
def State.collabView (s : State) : CollabView :=
  { v := s.v, i := s.i, pc := s.npc, mem := s.mem }

/-- The answer to a request: none attached is `COLLAB_NULL`, which answers `Done` with no writes (R145, R182);
otherwise the first mocked answer, or a draw of the free value (R143, log entries 1 to 3). -/
def State.collabAnswer (s : State) (req : CollabRequest) : CollabAnswer :=
  match s.collab with
  | .detached => .done []
  | .attached (a :: _) _ => a
  | .attached [] n => Config.collab n req (requestWord req) s.collabView

/-- The port after an answer was taken: the mocked answer is used up, or the next draw is a fresh one. -/
def CollabPort.consumed : CollabPort → CollabPort
  | .detached => .detached
  | .attached (_ :: rest) n => .attached rest n
  | .attached [] n => .attached [] (n + 1)

/-- The state with its port's answer used up. -/
def State.consumePort (s : State) : State := { s with collab := s.collab.consumed }

/-- The core's bounds check on one write (R144). -/
def writeInBounds : CollabWrite → Bool
  | .reg k _ => decide (k < Config.nreg)
  | .index _ => true
  | .pc _ => true
  | .mem j _ => inBounds j 1

/-- One write of a collaborator, applied (R143). The frame holds by construction: no write reaches `stack`, `sp`,
`RUN` or `FAULT`. A register index out of range has been refused before and writes nothing here. -/
def State.applyWrite (s : State) : CollabWrite → State
  | .reg k b => match Reg.ofNat? k with
    | some r => s.setReg r b
    | none => s
  | .index w => s.setIndex w
  | .pc t => s.setPc t
  | .mem j b => { s with mem := Memory.write s.mem j b }

/-- The writes of an answer, applied in the order listed; of two writes to one place the later stands (R143, log
entry 4). -/
def State.applyWrites (s : State) (ws : List CollabWrite) : State := ws.foldl State.applyWrite s

/-- `Delegate(req)` (R141 to R144). If the collaborator reports a read out of bounds, or asks for a write out of
bounds, the step is `Raise(OutOfBounds)` and nothing is committed; otherwise its writes are committed over the
advanced state, and the engine stays as it is. -/
def State.delegate (s : State) (req : CollabRequest) : State :=
  match s.collabAnswer req with
  | .outOfBounds => s.takeFault .outOfBounds
  | .done ws =>
    if ws.all writeInBounds then s.advance.consumePort.applyWrites ws
    else s.takeFault .outOfBounds

end Sys2Proof.Machine
end

