-- ==== Sys2Proof/Machine/Delegated.lean ====
section
/-! DEFINITION. The delegated instructions of families B to F (45_delegated.md). The core's part is the shared
operation `State.delegate`. -/

namespace Sys2Proof.Machine

/-- `JPO nnn`: jump plus offset, delegated: the core does not compute the target (R147). -/
def execJpo (nnn : Addr) (s : State) : Host.Outcome State Fault Refusal := .next (s.delegate (.jpo nnn))

/-- `RND Vx, kk`: random masked immediate, delegated (R148). -/
def execRnd (x : Reg) (kk : Byte) (s : State) : Host.Outcome State Fault Refusal :=
  .next (s.delegate (.rnd x kk))

/-- `DRW Vx, Vy, d`: sprite draw, delegated (R149). -/
def execDrw (x y : Reg) (d : Nibble) (s : State) : Host.Outcome State Fault Refusal :=
  .next (s.delegate (.drw x y d))

/-- `KEY Vx, kk`: key-pressed or not-pressed skip, delegated (R150). -/
def execKey (x : Reg) (kk : Byte) (s : State) : Host.Outcome State Fault Refusal :=
  .next (s.delegate (.key x kk))

/-- `EXT Vx, kk`: the F family, delegated (R151). -/
def execExt (x : Reg) (kk : Byte) (s : State) : Host.Outcome State Fault Refusal :=
  .next (s.delegate (.ext x kk))

end Sys2Proof.Machine
end

