-- ==== Sys2Proof/Machine/Immediate.lean ====
section
/-! DEFINITION. Immediate and index-register instructions: LDI, ADDI, LDIX (43_immediate_and_index.md). -/

namespace Sys2Proof.Machine

/-- `LDI Vx, kk`: `V[x] <- kk` (R120). -/
def execLdi (x : Reg) (kk : Byte) (s : State) : Host.Outcome State Fault Refusal :=
  .next (s.advance.setReg x kk)

/-- `ADDI Vx, kk`: `V[x] <- trunc_8(V[x] + kk)`; the flag is not written (R121). -/
def execAddi (x : Reg) (kk : Byte) (s : State) : Host.Outcome State Fault Refusal :=
  .next (s.advance.setReg x (addResult (s.reg x) kk))

/-- `LDIX nnn`: `I <- zext_16(nnn)` (R122). -/
def execLdix (nnn : Addr) (s : State) : Host.Outcome State Fault Refusal :=
  .next (s.advance.setIndex (nnn.zeroExtend (delta% Config.iBits)))

end Sys2Proof.Machine
end

