-- ==== Sys2Proof/Machine/System.lean ====
section
/-! DEFINITION. Family 0 system instructions: HALT, CLS, SYS (41_family0_system.md). -/

namespace Sys2Proof.Machine

/-- `HALT`: `RUN <- Halted`; the step commits, so `pc` is advanced (R105, decision D7). -/
def execHalt (s : State) : Host.Outcome State Fault Refusal :=
  .next { s.advance with run := .halted }

/-- `CLS`: clear the display, delegated (R106). -/
def execCls (s : State) : Host.Outcome State Fault Refusal := .next (s.delegate .cls)

/-- `SYS nnn`: native routine, a delegated passthrough: no push, no jump of the core's own (R107). -/
def execSys (nnn : Addr) (s : State) : Host.Outcome State Fault Refusal := .next (s.delegate (.sys nnn))

end Sys2Proof.Machine
end

