-- ==== Sys2Proof/Machine/Dispatch.lean ====
section
/-! DEFINITION. `Execute` (R95): one arm per instruction, each a direct call of its meaning. The state given is the
one at the start of the step, `pc` the address of the instruction; a meaning makes the advance itself (R93). -/

namespace Sys2Proof.Machine

def exec (i : Instr) (s : State) : Host.Outcome State Fault Refusal :=
  match i with
  | .halt => Sys2Proof.Machine.execHalt s
  | .cls => Sys2Proof.Machine.execCls s
  | .ret => Sys2Proof.Machine.execRet s
  | .sys nnn => Sys2Proof.Machine.execSys nnn s
  | .jp nnn => Sys2Proof.Machine.execJp nnn s
  | .call nnn => Sys2Proof.Machine.execCall nnn s
  | .sei x kk => Sys2Proof.Machine.execSei x kk s
  | .snei x kk => Sys2Proof.Machine.execSnei x kk s
  | .ser x y => Sys2Proof.Machine.execSer x y s
  | .ldi x kk => Sys2Proof.Machine.execLdi x kk s
  | .addi x kk => Sys2Proof.Machine.execAddi x kk s
  | .mov x y => Sys2Proof.Machine.execMov x y s
  | .or x y => Sys2Proof.Machine.execOr x y s
  | .and x y => Sys2Proof.Machine.execAnd x y s
  | .xor x y => Sys2Proof.Machine.execXor x y s
  | .add x y => Sys2Proof.Machine.execAdd x y s
  | .sub x y => Sys2Proof.Machine.execSub x y s
  | .shr x y => Sys2Proof.Machine.execShr x y s
  | .subn x y => Sys2Proof.Machine.execSubn x y s
  | .shl x y => Sys2Proof.Machine.execShl x y s
  | .sner x y => Sys2Proof.Machine.execSner x y s
  | .ldix nnn => Sys2Proof.Machine.execLdix nnn s
  | .jpo nnn => Sys2Proof.Machine.execJpo nnn s
  | .rnd x kk => Sys2Proof.Machine.execRnd x kk s
  | .drw x y d => Sys2Proof.Machine.execDrw x y d s
  | .key x kk => Sys2Proof.Machine.execKey x kk s
  | .ext x kk => Sys2Proof.Machine.execExt x kk s

end Sys2Proof.Machine
end

