-- ==== Sys2Proof/Machine/HostPort.lean ====
section
/-! DEFINITION. The host port (R9, R175 to R181): reset, loads, presets, attaching collaborators, launch, and what
the host observes. These operations are the host's, between steps; no instruction reaches them. -/

namespace Sys2Proof.Machine

/-! ## Reset and observation -/

/-- Reset: whatever the state was, it is the reset state again, memory included (R164, R175). -/
def State.hostReset (_s : State) : State := State.reset

/-- The number of a run state, for a host that needs one (R34). -/
def RunState.code : RunState → Nat
  | .running => 0 | .halted => 1 | .faulted => 2

/-- The number of a fault kind, for a host that needs one (R35, R160). -/
def FaultRecord.code : FaultRecord → Nat
  | .none => 0 | .stackOverflow => 1 | .stackUnderflow => 2 | .outOfBounds => 3 | .unimplementedOpcode _ => 4

/-! ## The loader's operations -/

/-- What a load reports to the host: the state and the next free offset, or `OutOfBounds`, the engine's `RUN` and
`FAULT` not being touched by it (R66, R172). -/
inductive LoadResult where
  | loaded (s : State) (nextFree : Nat)
  | outOfBounds
deriving DecidableEq, Repr

/-- Every byte of a load is at an index that exists; a load of no byte is always in bounds (R66). -/
def loadInBounds (off n : Nat) : Bool := n == 0 || inBounds off n

/-- `LoadBytes(off, bs)`, refused whole when an index is out of bounds (R66, R177). -/
def State.loadBytes (s : State) (off : Nat) (bs : List Byte) : LoadResult :=
  if loadInBounds off bs.length then
    .loaded { s with mem := Memory.writeBytes s.mem off bs } (off + bs.length)
  else .outOfBounds

/-- The bytes of instruction words, high byte first (R53, R65). -/
def bytesOfWords : List Word → List Byte
  | [] => []
  | w :: ws => highByte w :: lowByte w :: bytesOfWords ws

/-- `LoadInstructions(off, ws)` (R65, R177). -/
def State.loadInstructions (s : State) (off : Nat) (ws : List Word) : LoadResult :=
  s.loadBytes off (bytesOfWords ws)

/-! ## Presets, attachment, launch -/

/-- Preset of the stack pointer, within 0 to 16 (R179). -/
def State.presetSp (s : State) (n : Fin ((delta% Config.stackDepth) + 1)) : State := { s with sp := n }

/-- Preset of a call-stack slot (R179). -/
def State.presetSlot (s : State) (k : Fin (delta% Config.stackDepth)) (a : Addr) : State := { s with stack := s.stack.set k a }

/-- Attaching collaborators to their port, or leaving it empty (R182). -/
def State.attach (s : State) (port : CollabPort) : State := { s with collab := port }

/-- The launch PC: `pc <- PC_ENTRY` (R178). -/
def State.launch (s : State) (entry : Addr := Config.pcEntryDefault) : State := s.setPc entry

/-- What a host may do between reset and launch (R176, R179, R182). -/
inductive HostAction where
  | loadInstructions (off : Nat) (ws : List Word)
  | loadBytes (off : Nat) (bs : List Byte)
  | presetReg (r : Reg) (b : Byte)
  | presetIndex (w : Index)
  | presetSp (n : Fin ((delta% Config.stackDepth) + 1))
  | presetSlot (k : Fin (delta% Config.stackDepth)) (a : Addr)
  | attach (port : CollabPort)
deriving DecidableEq, Repr

/-- One host action; `none` when a load is refused. -/
def State.hostAct (s : State) : HostAction → Option State
  | .loadInstructions off ws => match s.loadInstructions off ws with
    | .loaded t _ => some t
    | .outOfBounds => none
  | .loadBytes off bs => match s.loadBytes off bs with
    | .loaded t _ => some t
    | .outOfBounds => none
  | .presetReg r b => some (s.setReg r b)
  | .presetIndex w => some (s.setIndex w)
  | .presetSp n => some (s.presetSp n)
  | .presetSlot k a => some (s.presetSlot k a)
  | .attach port => some (s.attach port)

/-- Host actions in the order issued, so a later load overwrites an earlier one (R67, R176). -/
def State.hostActs (s : State) : List HostAction → Option State
  | [] => some s
  | a :: rest => match s.hostAct a with
    | some t => t.hostActs rest
    | none => none

/-- The launch state: reset, then the host's actions, then the launch PC; the host writes nothing after it (R176).
"A model may simply refuse to build a launch state" from a load that is out of bounds (R66). -/
def launchState (acts : List HostAction) (entry : Addr := Config.pcEntryDefault) : Option State :=
  (State.reset.hostActs acts).map (fun s => s.launch entry)

/-! ## The host's question about one word -/

/-- `s` made ready so that its next step fetches the word `w`: the word stored at `pc`, high byte first, and the
engine Running with no fault recorded. At `pc` = 0xFFF no instruction can be fetched (R56), so `pc` is 0 there. -/
def State.placeNextWord (s : State) (w : Word) : State :=
  let at_ : Addr := if s.pc = 0xFFF then 0 else s.pc
  { s with
    pc := at_
    mem := Memory.writeBytes s.mem (addrIndex at_) [highByte w, lowByte w]
    run := .running
    fault := .none }

end Sys2Proof.Machine
end

