-- ==== Sys2Proof/Machine/Step.lean ====
section
/-! DEFINITION. The engine's step (R91, R99): fetch, decode, dispatch, execute, commit, each from the operations of
the files it imports. -/

namespace Sys2Proof.Machine

/-- `Step(S)` (R99). A step request in a terminal state changes nothing (R98). The checks come in the order of the
step: `OutOfBounds` at fetch, `UnimplementedOpcode` at dispatch, then the handler's own fault (R163). -/
def step (s : State) : Host.Outcome State Fault Refusal :=
  match s.run with
  | .halted => .next s
  | .faulted => .next s
  | .running =>
    match s.fetch with
    | none => .next (s.takeFault .outOfBounds)
    | some w =>
      match decodeWord w with
      | none => .next (s.takeFault (.unimplementedOpcode w))
      | some i => exec i s

/-- `s` with a word of the opcode table stored where `step` fetches its next instruction, so that the very next step
runs it. See `State.placeNextWord` for what that takes. -/
def State.withFetchWord (s : State) (nbits w : Nat) : State :=
  s.placeNextWord (BitVec.ofNat 16 (w % 2 ^ nbits))

end Sys2Proof.Machine
end

