-- ==== Sys2Proof/Machine/Assembly.lean ====
section
/-! DEFINITION. The named constructors behind the mnemonics: tokens and operand numbers to instructions (R83, R85,
R86). An operand outside its range is refused, never truncated (R83). -/

namespace Sys2Proof

/-- The mnemonic token of an instruction (R86). -/
def Instr.mnemonic : Instr → String
  | .halt => "HALT" | .cls => "CLS" | .ret => "RET" | .sys _ => "SYS" | .jp _ => "JP" | .call _ => "CALL"
  | .sei _ _ => "SEI" | .snei _ _ => "SNEI" | .ser _ _ => "SER" | .ldi _ _ => "LDI" | .addi _ _ => "ADDI"
  | .mov _ _ => "MOV" | .or _ _ => "OR" | .and _ _ => "AND" | .xor _ _ => "XOR" | .add _ _ => "ADD"
  | .sub _ _ => "SUB" | .shr _ _ => "SHR" | .subn _ _ => "SUBN" | .shl _ _ => "SHL" | .sner _ _ => "SNER"
  | .ldix _ => "LDIX" | .jpo _ => "JPO" | .rnd _ _ => "RND" | .drw _ _ _ => "DRW" | .key _ _ => "KEY"
  | .ext _ _ => "EXT"

/-- The operands of an instruction as numbers, in the order of R86's syntax; `SHR` and `SHL` in their two-operand
form, which sets the `y` field (R85). -/
def Instr.operands : Instr → List Nat
  | .halt | .cls | .ret => []
  | .sys n | .jp n | .call n | .ldix n | .jpo n => [n.toNat]
  | .sei x k | .snei x k | .ldi x k | .addi x k | .rnd x k | .key x k | .ext x k => [x.index.val, k.toNat]
  | .ser x y | .mov x y | .or x y | .and x y | .xor x y | .add x y | .sub x y | .shr x y | .subn x y | .shl x y
  | .sner x y => [x.index.val, y.index.val]
  | .drw x y d => [x.index.val, y.index.val, d.toNat]

/-- A number as an operand of `w` bits, refused when it does not fit (R83). -/
def operandOfNat (w n : Nat) : Option (BitVec w) := if n < 2 ^ w then some (BitVec.ofNat w n) else none

/-- Shape `NNN` (R75). -/
def assembleNNN (make : Addr → Instr) (n : Nat) : Option Instr := (operandOfNat (delta% Config.addrBits) n).map make

/-- Shape `XKK` (R75). -/
def assembleXKK (make : Reg → Byte → Instr) (x k : Nat) : Option Instr :=
  match Reg.ofNat? x, operandOfNat (delta% Config.xlen) k with
  | some r, some b => some (make r b)
  | _, _ => none

/-- Shape `XYD` (R75). -/
def assembleXYD (make : Reg → Reg → Instr) (x y : Nat) : Option Instr :=
  match Reg.ofNat? x, Reg.ofNat? y with
  | some r, some q => some (make r q)
  | _, _ => none

/-- Shape `XYN` (R75). -/
def assembleXYN (make : Reg → Reg → Nibble → Instr) (x y d : Nat) : Option Instr :=
  match Reg.ofNat? x, Reg.ofNat? y, operandOfNat 4 d with
  | some r, some q, some n => some (make r q n)
  | _, _, _ => none

/-- The tokens of shape `N0` (R75, R86). -/
def makeN0 (token : String) : Option Instr :=
  if token = "HALT" then some .halt else if token = "CLS" then some .cls else if token = "RET" then some .ret
  else none

/-- The tokens of shape `NNN` (R75, R86). -/
def makeNNN (token : String) : Option (Addr → Instr) :=
  if token = "SYS" then some .sys else if token = "JP" then some .jp else if token = "CALL" then some .call
  else if token = "LDIX" then some .ldix else if token = "JPO" then some .jpo else none

/-- The tokens of shape `XKK` (R75, R86). -/
def makeXKK (token : String) : Option (Reg → Byte → Instr) :=
  if token = "SEI" then some .sei else if token = "SNEI" then some .snei else if token = "LDI" then some .ldi
  else if token = "ADDI" then some .addi else if token = "RND" then some .rnd else if token = "KEY" then some .key
  else if token = "EXT" then some .ext else none

/-- The tokens of shape `XYD` (R75, R86). -/
def makeXYD (token : String) : Option (Reg → Reg → Instr) :=
  if token = "SER" then some .ser else if token = "MOV" then some .mov else if token = "OR" then some .or
  else if token = "AND" then some .and else if token = "XOR" then some .xor else if token = "ADD" then some .add
  else if token = "SUB" then some .sub else if token = "SHR" then some .shr else if token = "SUBN" then some .subn
  else if token = "SHL" then some .shl else if token = "SNER" then some .sner else none

/-- `SHR Vx` and `SHL Vx`, the one-operand forms (R85). -/
def makeShift (token : String) : Option (Reg → Reg → Instr) :=
  if token = "SHR" then some .shr else if token = "SHL" then some .shl else none

/-- The token of shape `XYN` (R75, R86). -/
def makeXYN (token : String) : Option (Reg → Reg → Nibble → Instr) :=
  if token = "DRW" then some .drw else none

/-- The instruction that a mnemonic token and its operands name, before the check on `SYS` (R86). `SHR Vx` and
`SHL Vx` assemble with `y = 0` (R85). -/
def assembleToken (token : String) : List Nat → Option Instr
  | [] => makeN0 token
  | [a] => match makeNNN token, makeShift token with
    | some make, _ => assembleNNN make a
    | none, some make => assembleXYD make a 0
    | none, none => none
  | [a, b] => match makeXKK token, makeXYD token with
    | some make, _ => assembleXKK make a b
    | none, some make => assembleXYD make a b
    | none, none => none
  | [a, b, c] => match makeXYN token with
    | some make => assembleXYN make a b c
    | none => none
  | _ => none

/-- The assembler: it refuses an operand out of range, and `SYS` with the operands whose words are `HALT`, `CLS`
and `RET` (R83). -/
def assemble (token : String) (ops : List Nat) : Option Instr :=
  (assembleToken token ops).filter wellFormed

end Sys2Proof
end

