-- ==== Sys2Proof/Safety.lean ====
section
/-! DEFINITION. The terms the statements use: the invariant of the machine, what counts as the end of a run and as
a safe run, and the frame predicates (what a step leaves as it was). -/

namespace Sys2Proof.Machine

/-! ## The invariant and the end of a run -/

/-- `FAULT = None` if and only if `RUN != Faulted` (R35, R43). -/
def State.FaultRecordAgrees (s : State) : Prop := s.fault = .none ↔ s.run ≠ .faulted

/-- The invariant: the fault record agrees with the run state (R43), and memory keeps its canonical form. The other
bounds of R43 hold by the types of the fields. -/
def State.Inv (s : State) : Prop := s.FaultRecordAgrees ∧ Memory.wf s.mem

/-- The list of R43: every bound, and the fault record agreeing with the run state. -/
def State.WithinBounds (s : State) : Prop :=
  (∀ r, (s.reg r).toNat ≤ 255) ∧ s.pc.toNat ≤ 4095 ∧ s.i.toNat ≤ 65535 ∧ (∀ k : Fin 16, s.stack[k].toNat ≤ 4095) ∧
    s.sp.val ≤ 16 ∧ (∀ a, (Memory.read s.mem a).toNat ≤ 255) ∧ s.FaultRecordAgrees

/-- A terminal state: no step changes it (R17, R90). -/
def State.Terminal (s : State) : Prop := s.run ≠ .running

/-- A run ends at the first state whose `RUN` is Halted (normal end) or Faulted (abnormal end) (R19). -/
def EndsNormally (s : State) : Prop := ∃ k t, Sys2Proof.core.run k s = .next t ∧ t.run = .halted

/-- A safe run: no state along it is Faulted, "never a final state of a correct run" (R164). -/
def SafeRun (s : State) : Prop := ∀ k t, Sys2Proof.core.run k s = .next t → t.run ≠ .faulted

/-! ## Frames: what a step leaves as it was -/

/-- Every register outside the list reads as before. -/
def KeepsRegsExcept (rs : List Reg) (s t : State) : Prop := ∀ r, r ∉ rs → t.reg r = s.reg r

/-- Every byte of memory reads as before. -/
def KeepsMemory (s t : State) : Prop := ∀ a, Memory.read t.mem a = Memory.read s.mem a

/-- The call stack is as before: the stack pointer and every slot, live or dead. -/
def KeepsStack (s t : State) : Prop := t.sp = s.sp ∧ ∀ k : Fin 16, t.stack[k] = s.stack[k]

/-- The two status registers, `RUN` and `FAULT`, are as before. -/
def KeepsStatus (s t : State) : Prop := t.run = s.run ∧ t.fault = s.fault

/-- Nothing but the program counter and the registers of the list may differ. -/
def OnlyRegsAndPc (rs : List Reg) (s t : State) : Prop :=
  KeepsRegsExcept rs s t ∧ t.i = s.i ∧ KeepsStack s t ∧ KeepsMemory s t ∧ KeepsStatus s t ∧ t.collab = s.collab

/-- The program counter is `n` bytes further, modulo 4096 (R26). -/
def PcAdvanced (n : Nat) (s t : State) : Prop := t.pc.toNat = (s.pc.toNat + n) % 4096

/-- Fault entry as a relation: `RUN` is Faulted, `FAULT` holds the reason, all else is as before the step (R161). -/
def FaultEntered (reason : FaultRecord) (s t : State) : Prop := t = { s with run := .faulted, fault := reason }

end Sys2Proof.Machine

namespace Sys2Proof

/-! ## Instructions as syntax -/

/-- The word with number `n` is the instruction `i`: the encoding line of an instruction's rule. -/
def EncodedAs (i : Instr) (n : Nat) : Prop := decodeWord (BitVec.ofNat 16 n) = some i

/-- The instructions whose whole effect the spec defines (R17). The other seven are delegated. -/
def Instr.isCore : Instr → Bool
  | .cls | .sys _ | .jpo _ | .rnd _ _ | .drw _ _ _ | .key _ _ | .ext _ _ => false
  | .halt | .ret | .jp _ | .call _ | .sei _ _ | .snei _ _ | .ser _ _ | .ldi _ _ | .addi _ _ | .mov _ _ | .or _ _
  | .and _ _ | .xor _ _ | .add _ _ | .sub _ _ | .shr _ _ | .subn _ _ | .shl _ _ | .sner _ _ | .ldix _ => true

/-- The registers a core instruction may write: its destination, and `VF` for the five flag writers (R21, R37). -/
def Instr.writes : Instr → List Reg
  | .ldi x _ | .addi x _ | .mov x _ | .or x _ | .and x _ | .xor x _ => [x]
  | .add x _ | .sub x _ | .shr x _ | .subn x _ | .shl x _ => [x, .VF]
  | .halt | .cls | .ret | .sys _ | .jp _ | .call _ | .sei _ _ | .snei _ _ | .ser _ _ | .sner _ _ | .ldix _
  | .jpo _ | .rnd _ _ | .drw _ _ _ | .key _ _ | .ext _ _ => []

end Sys2Proof
end

