-- ==== Sys2Proof/Certificates/Slice0/Obligations.lean ====
section
/-! DEFINITION. The statements for the provers. Each docstring names the rules of spec/ it comes from. The frame
predicates (`OnlyRegsAndPc`, `KeepsMemory`, `PcAdvanced`, …) are those of Safety.lean. -/

open Sys2Proof Sys2Proof.Machine

/-! ## Reset, the invariant, the run -/

/-- O1. What reset leaves, every row of the table of R41, and the launch value of the program counter (R41, R178).
That `FAULT` is None is the spec's own inference, and the launch value its own decision D3 (log entries 7, 9). -/
def Obligations.ResetZeroesEverything : Prop :=
  (∀ r, State.reset.reg r = 0) ∧ State.reset.pc = 0 ∧ State.reset.i = 0 ∧ (∀ k : Fin 16, State.reset.stack[k] = 0) ∧
    State.reset.sp = 0 ∧ (∀ a, a < 4096 → Memory.read1 State.reset.mem a = some 0) ∧
    State.reset.run = .running ∧ State.reset.fault = .none ∧
    (∀ entry, (State.reset.launch entry).pc = entry) ∧ State.reset.launch.pc = 0

/-- O2. The reset state meets the invariant (R43; that memory is canonical is the model's own part of it, log entry
5). -/
def Obligations.ResetMeetsInvariant : Prop := State.reset.Inv

/-- O3. Every step keeps the invariant: the fault record agrees with the run state (R43) and memory stays in its
canonical form, the model's own convention (log entry 5). -/
def Obligations.StepKeepsInvariant : Prop :=
  ∀ (s t : State), s.Inv → step s = .next t → t.Inv

/-- O4. A run of any length from a state that meets the invariant never stops in a fault or refusal of the model, goes
on answering in a terminal state, and its state meets the invariant (R43, R101). That the spec's faults are next states
and that a step request in a terminal state answers the same state are the model's choice after the spec's own decision
D12 (log entry 8), and the canonical form of memory in the invariant is the model's own (log entry 5). -/
def Obligations.RunsKeepInvariant : Prop :=
  ∀ (s : State) k, s.Inv → ∃ (t : State), Sys2Proof.core.run k s = .next t ∧ t.Inv

/-- O5. The bounds of R43 hold at reset and no step breaks them, "including steps that fault, because a faulting
step changes only `RUN` and `FAULT`" (R43). -/
def Obligations.StepKeepsBounds : Prop :=
  State.reset.WithinBounds ∧ ∀ (s t : State), s.WithinBounds → step s = .next t →
    t.WithinBounds ∧ (s.run = .running → t.run = .faulted → FaultEntered t.fault s t)

/-- O6. A step request in a terminal state changes nothing, however often it is repeated (R98, the spec's own decision
D12; log entry 8). -/
def Obligations.TerminalStatesNeverChange : Prop :=
  ∀ (s : State), s.Terminal → ∀ k, Sys2Proof.core.run k s = .next s

/-- O7. Every instruction, in every state, and every step answer a next state: no instruction is refused and no
step gets stuck (R82; R188, which speaks of core instructions). That a step in a terminal state answers a next state is
the spec's own decision D12, that the four faults are next states is the model's form of them (log entry 8 for both),
and that a delegated instruction answers within its step is an obligation on the collaborator which the form of the
model's answers carries (log entry 14). -/
def Obligations.EveryInstructionAnswersNext : Prop :=
  (∀ i (s : State), ∃ (t : State), exec i s = .next t) ∧ ∀ (s : State), ∃ (t : State), step s = .next t

/-- O8. The run-state transitions: a terminal state stays as it is, a running one becomes Halted exactly when the
word fetched is 0x0000, and only reset leaves a terminal state (R90; that reset is construction again is the spec's
own decision D20, and that a step request leaves a terminal state as it is its decision D12; log entries 8, 9). -/
def Obligations.RunStateTransitions : Prop :=
  (∀ (s : State), ∃ (t : State), step s = .next t ∧ (s.Terminal → t = s) ∧
    (s.run = .running → (t.run = .halted ↔ s.fetch = some 0x0000))) ∧
  ∀ s : State, s.hostReset = State.reset ∧ s.hostReset.run = .running

/-- O9. Faults are precise and each has its cause: a step from Running that ends Faulted changed nothing but `RUN`
and `FAULT`, and the reason recorded is the one of R156 to R159 (R155 to R163). That `pc` stays at the faulting
instruction is the spec's own decision D6, the order of the checks its decision D16 (log entry 9); that a
collaborator's read out of bounds appears as the answer `outOfBounds` is the model's own form (log entry 14). -/
def Obligations.FaultsArePreciseAndCaused : Prop :=
  ∀ (s t : State), s.run = .running → step s = .next t → t.run = .faulted →
    FaultEntered t.fault s t ∧
    ((t.fault = .outOfBounds ∧ s.pc = 0xFFF) ∨
     (t.fault = .outOfBounds ∧ ∃ w req, s.fetch = some w ∧ decodeWord w = some (requestInstr req) ∧
        (s.collabAnswer req = .outOfBounds ∨ ∃ ws, s.collabAnswer req = .done ws ∧
          ((∃ k b, .reg k b ∈ ws ∧ 16 ≤ k) ∨ ∃ j b, .mem j b ∈ ws ∧ 4096 ≤ j))) ∨
     (∃ w, t.fault = .unimplementedOpcode w ∧ s.fetch = some w ∧ decodeWord w = none) ∨
     (t.fault = .stackOverflow ∧ s.sp.val = 16 ∧ ∃ w nnn, s.fetch = some w ∧ decodeWord w = some (.call nnn)) ∨
     (t.fault = .stackUnderflow ∧ s.sp.val = 0 ∧ ∃ w, s.fetch = some w ∧ decodeWord w = some .ret))

/-! ## The step -/

/-- O10. A step runs the decoded instruction: from a Running state whose two bytes at the program counter decode to
`i`, the step is `exec i` on that very state; the advance is part of each meaning (R91 to R95, R99). -/
def Obligations.StepRunsDecodedInstruction : Prop :=
  ∀ (s : State) i, s.run = .running → s.pc ≠ 0xFFF →
    decodeWord (wordOfBytes (Memory.read s.mem s.pc.toNat) (Memory.read s.mem (s.pc.toNat + 1))) = some i →
    step s = exec i s

/-- O11. The fetch at the top of memory: at 0xFFF the step is `OutOfBounds`, whatever byte is there; at 0xFFE the
fetch reads indices 4094 and 4095 and the advance wraps to 0x000 (R56, the spec's own decision D4; log entry 9). -/
def Obligations.FetchAtTopOfMemory : Prop :=
  (∀ (s : State), s.run = .running → s.pc = 0xFFF →
    step s = .next { s with run := .faulted, fault := .outOfBounds }) ∧
  ∀ (s : State), s.pc = 0xFFE →
    s.fetch = some (wordOfBytes (Memory.read s.mem 4094) (Memory.read s.mem 4095)) ∧ s.advance.pc = 0

/-- O12. `UnimplementedOpcode`: its words are `5xyd` and `9xyd` with `d` not 0 and `8xyd` with `d` in 8 to D or F;
the step that fetches one records that word (R159) and changes nothing else. That nothing else changes, the program
counter included, is the spec's own inference in R79 and its decision D6 in R161 (log entry 9). -/
def Obligations.UnmatchedWordFaults : Prop :=
  (∀ w : Word, decodeWord w = none ↔
    (w.toNat / 4096 = 5 ∧ w.toNat % 16 ≠ 0) ∨ (w.toNat / 4096 = 9 ∧ w.toNat % 16 ≠ 0) ∨
    (w.toNat / 4096 = 8 ∧ w.toNat % 16 ∈ [8, 9, 10, 11, 12, 13, 15])) ∧
  ∀ (s : State) w, s.run = .running → s.fetch = some w → decodeWord w = none →
    step s = .next { s with run := .faulted, fault := .unimplementedOpcode w }

/-- O13. The order of the table: `HALT`, `CLS` and `RET` are not swallowed by `SYS`, which is selected by exactly
the other words of family 0; and the only rows that overlap are the first three with the fourth (R77). -/
def Obligations.ExactRowsComeBeforeSys : Prop :=
  decodeWord 0x0000 = some .halt ∧ decodeWord 0x00E0 = some .cls ∧ decodeWord 0x00EE = some .ret ∧
  (∀ w : Word, (∃ nnn, decodeWord w = some (.sys nnn)) ↔
    w.toNat < 4096 ∧ w ≠ 0x0000 ∧ w ≠ 0x00E0 ∧ w ≠ 0x00EE) ∧
  ∀ (j k : Fin 27) (w : Word), j < k → (dispatchTable[j]'(j.isLt)).selects w = true →
    (dispatchTable[k]'(k.isLt)).selects w = true → k = 3

/-- O14. The seven delegated instructions are routed on their words alone: families B to F whole, 0x00E0, and the
words of `SYS`; none of these is unimplemented (R140; that families B to F are routed on the family nibble alone is
the spec's own decision D10, in R80; log entry 9). -/
def Obligations.DelegatedWordsAreRouted : Prop :=
  ∀ w : Word, (∃ req, decodeWord w = some (requestInstr req)) ↔
    11 ≤ w.toNat / 4096 ∨ (w.toNat < 4096 ∧ w ≠ 0x0000 ∧ w ≠ 0x00EE)

/-- O15. Words written out from the encodings of R76 and R86, at least one of every family, and the three kinds of
word that select no row (95_test_vectors.md E1 to E18). -/
def Obligations.WordsOfEveryFamilyDecode : Prop :=
  decodeWord 0x0000 = some .halt ∧ decodeWord 0x00E0 = some .cls ∧ decodeWord 0x00EE = some .ret ∧
  decodeWord 0x00E1 = some (.sys 0x0E1) ∧ decodeWord 0x1ABC = some (.jp 0xABC) ∧
  decodeWord 0x2006 = some (.call 0x006) ∧ decodeWord 0x332A = some (.sei .V3 0x2A) ∧
  decodeWord 0x432A = some (.snei .V3 0x2A) ∧ decodeWord 0x5120 = some (.ser .V1 .V2) ∧
  decodeWord 0x6F80 = some (.ldi .VF 0x80) ∧ decodeWord 0x7005 = some (.addi .V0 0x05) ∧
  decodeWord 0x8AB4 = some (.add .VA .VB) ∧ decodeWord 0x8AB6 = some (.shr .VA .VB) ∧
  decodeWord 0x8ABE = some (.shl .VA .VB) ∧ decodeWord 0x9120 = some (.sner .V1 .V2) ∧
  decodeWord 0xA123 = some (.ldix 0x123) ∧ decodeWord 0xB200 = some (.jpo 0x200) ∧
  decodeWord 0xC30F = some (.rnd .V3 0x0F) ∧ decodeWord 0xD123 = some (.drw .V1 .V2 3) ∧
  decodeWord 0xE19E = some (.key .V1 0x9E) ∧ decodeWord 0xFFFF = some (.ext .VF 0xFF) ∧
  decodeWord 0x8AB8 = none ∧ decodeWord 0x5AB1 = none ∧ decodeWord 0x9ABF = none

/-- O16. Decode and encode agree: the word of every well-formed instruction selects the row of its mnemonic and
decodes to it, with every operand, as a word and as bytes (R84). -/
def Obligations.DecodeOfEncodeIsTheInstruction : Prop :=
  ∀ i, wellFormed i = true →
    decodeWord (encode i) = some i ∧ (dispatchRow? (encode i)).map DispatchRow.mnemonic = some i.mnemonic ∧
    ∀ rest, decodeBytes (encodeBytes i ++ rest) = .instr i rest

/-- O17. The other direction: a word that decodes to an instruction is that instruction's word, and the instruction
is well formed; so each word has at most one meaning and no bit of it is dropped (R82, R83). -/
def Obligations.EncodeOfDecodeIsTheWord : Prop :=
  ∀ w i, decodeWord w = some i → encode i = w ∧ wellFormed i = true

/-- O18. Every encoder places its operands as R83's arithmetic says: the match of the row, the register fields times
256 and 16, the immediate, the address and the count as they are (R76, R83). -/
def Obligations.EncodersPlaceOperands : Prop :=
  (encode .halt).toNat = 0x0000 ∧ (encode .cls).toNat = 0x00E0 ∧ (encode .ret).toNat = 0x00EE ∧
  (∀ n, (encode (.sys n)).toNat = 0x0000 + n.toNat) ∧ (∀ n, (encode (.jp n)).toNat = 0x1000 + n.toNat) ∧
  (∀ n, (encode (.call n)).toNat = 0x2000 + n.toNat) ∧ (∀ n, (encode (.ldix n)).toNat = 0xA000 + n.toNat) ∧
  (∀ n, (encode (.jpo n)).toNat = 0xB000 + n.toNat) ∧
  (∀ x k, (encode (.sei x k)).toNat = 0x3000 + x.index.val * 256 + k.toNat) ∧
  (∀ x k, (encode (.snei x k)).toNat = 0x4000 + x.index.val * 256 + k.toNat) ∧
  (∀ x k, (encode (.ldi x k)).toNat = 0x6000 + x.index.val * 256 + k.toNat) ∧
  (∀ x k, (encode (.addi x k)).toNat = 0x7000 + x.index.val * 256 + k.toNat) ∧
  (∀ x k, (encode (.rnd x k)).toNat = 0xC000 + x.index.val * 256 + k.toNat) ∧
  (∀ x k, (encode (.key x k)).toNat = 0xE000 + x.index.val * 256 + k.toNat) ∧
  (∀ x k, (encode (.ext x k)).toNat = 0xF000 + x.index.val * 256 + k.toNat) ∧
  (∀ x y, (encode (.ser x y)).toNat = 0x5000 + x.index.val * 256 + y.index.val * 16) ∧
  (∀ x y, (encode (.mov x y)).toNat = 0x8000 + x.index.val * 256 + y.index.val * 16) ∧
  (∀ x y, (encode (.or x y)).toNat = 0x8001 + x.index.val * 256 + y.index.val * 16) ∧
  (∀ x y, (encode (.and x y)).toNat = 0x8002 + x.index.val * 256 + y.index.val * 16) ∧
  (∀ x y, (encode (.xor x y)).toNat = 0x8003 + x.index.val * 256 + y.index.val * 16) ∧
  (∀ x y, (encode (.add x y)).toNat = 0x8004 + x.index.val * 256 + y.index.val * 16) ∧
  (∀ x y, (encode (.sub x y)).toNat = 0x8005 + x.index.val * 256 + y.index.val * 16) ∧
  (∀ x y, (encode (.shr x y)).toNat = 0x8006 + x.index.val * 256 + y.index.val * 16) ∧
  (∀ x y, (encode (.subn x y)).toNat = 0x8007 + x.index.val * 256 + y.index.val * 16) ∧
  (∀ x y, (encode (.shl x y)).toNat = 0x800E + x.index.val * 256 + y.index.val * 16) ∧
  (∀ x y, (encode (.sner x y)).toNat = 0x9000 + x.index.val * 256 + y.index.val * 16) ∧
  ∀ x y d, (encode (.drw x y d)).toNat = 0xD000 + x.index.val * 256 + y.index.val * 16 + d.toNat

/-- O19. The assembler: every well-formed instruction is assembled from its mnemonic and operands, and whatever it
accepts is well formed and has exactly the operands given, none truncated; the one-operand `SHR` and `SHL` mean
`y = 0` (R83; the tokens and the one-operand forms are the spec's own decision D14, in R85 and R86; log entry 9). -/
def Obligations.AssemblerNeverTruncates : Prop :=
  (∀ i, wellFormed i = true → assemble i.mnemonic i.operands = some i) ∧
  ∀ token ops i, assemble token ops = some i → wellFormed i = true ∧ i.mnemonic = token ∧
    (i.operands = ops ∨ ∃ x, ops = [x] ∧ i.operands = [x, 0] ∧ (token = "SHR" ∨ token = "SHL"))

/-- O20. The register names and the indices 0 to 15 are in bijection, with the values of R88 (R88). -/
def Obligations.RegisterNamesAreABijection : Prop :=
  (∀ r, Reg.ofIndex r.index = r) ∧ (∀ k, (Reg.ofIndex k).index = k) ∧
  [Reg.V0, .V1, .V2, .V3, .V4, .V5, .V6, .V7, .V8, .V9, .VA, .VB, .VC, .VD, .VE, .VF].map (fun r => r.index.val) =
    [0, 1, 2, 3, 4, 5, 6, 7, 8, 9, 10, 11, 12, 13, 14, 15]

/-- O21. The address unit: packing and unpacking of nibbles, conversion from integers, addition and subtraction
modulo 4096, comparison by value (R27, R28; that a conversion keeps the low 12 bits is the spec's own decision D15;
log entry 9). -/
def Obligations.AddressUnitIsModular : Prop :=
  (∀ n1 n2 n3, (addrPack n1 n2 n3).toNat = n1.toNat * 256 + n2.toNat * 16 + n3.toNat ∧
    addrN1 (addrPack n1 n2 n3) = n1 ∧ addrN2 (addrPack n1 n2 n3) = n2 ∧ addrN3 (addrPack n1 n2 n3) = n3) ∧
  (∀ a, addrPack (addrN1 a) (addrN2 a) (addrN3 a) = a) ∧
  (∀ n, (addrOfNat n).toNat = n % 4096) ∧
  (∀ a k, (addrAdd a k).toNat = (a.toNat + k) % 4096) ∧
  (∀ a k, ((addrSub a k).toNat : Int) = ((a.toNat : Int) - (k : Int)) % 4096) ∧
  (∀ a k, addrSub (addrAdd a k) k = a) ∧
  ∀ a b, (addrEq a b = true ↔ a = b) ∧ (addrLt a b = true ↔ a.toNat < b.toNat)

/-! ## Family 0 and control transfer -/

/-- O22. `HALT`: `RUN` becomes Halted, the program counter is advanced, nothing else changes; a fetch of two zero
bytes executes it, and further step requests change nothing (R105). That the program counter is advanced is the
spec's own decision D7, that two zero bytes are a `HALT` its inference, the last clause its decision D12 (log entries
8, 9). -/
def Obligations.HaltStopsTheEngine : Prop :=
  EncodedAs .halt 0x0000 ∧
  (∀ (s : State), ∃ (t : State), exec .halt s = .next t ∧ t.run = .halted ∧ t.fault = s.fault ∧ PcAdvanced 2 s t ∧
    KeepsRegsExcept [] s t ∧ t.i = s.i ∧ KeepsStack s t ∧ KeepsMemory s t ∧ t.collab = s.collab) ∧
  (∀ (s : State), s.run = .running → s.pc ≠ 0xFFF → Memory.read s.mem s.pc.toNat = 0 →
    Memory.read s.mem (s.pc.toNat + 1) = 0 → step s = exec .halt s) ∧
  ∀ (s : State), s.run = .halted → step s = .next s

/-- O23. `JP nnn`: the program counter is `nnn`, any value of it, and nothing else changes (R111). -/
def Obligations.JpSetsThePc : Prop :=
  ∀ nnn, EncodedAs (.jp nnn) (0x1000 + nnn.toNat) ∧
    ∀ (s : State), ∃ (t : State), exec (.jp nnn) s = .next t ∧ t.pc = nnn ∧ OnlyRegsAndPc [] s t

/-- O24. `CALL nnn`: with a slot free, the address of the instruction after the call goes into slot `sp`, `sp` counts
one more, the program counter is `nnn`, every other slot and all else is as before; with `sp = 16`, `StackOverflow`
and nothing else changes (R112). -/
def Obligations.CallPushesTheReturnAddress : Prop :=
  ∀ nnn, EncodedAs (.call nnn) (0x2000 + nnn.toNat) ∧ ∀ (s : State),
    (s.sp.val < 16 → ∃ (t : State), exec (.call nnn) s = .next t ∧ t.pc = nnn ∧ t.sp.val = s.sp.val + 1 ∧
      (∀ k : Fin 16, k.val = s.sp.val → t.stack[k].toNat = (s.pc.toNat + 2) % 4096) ∧
      (∀ k : Fin 16, k.val ≠ s.sp.val → t.stack[k] = s.stack[k]) ∧
      KeepsRegsExcept [] s t ∧ t.i = s.i ∧ KeepsMemory s t ∧ KeepsStatus s t ∧ t.collab = s.collab) ∧
    (s.sp.val = 16 → ∃ (t : State), exec (.call nnn) s = .next t ∧ FaultEntered .stackOverflow s t)

/-- O25. `RET`: with an entry live, the program counter is the top entry, `sp` counts one less, every slot keeps its
value and all else is as before; with `sp = 0`, `StackUnderflow` and nothing else changes (R110; that the slot keeps
its value is the spec's own decision D13, in R33; log entry 9). -/
def Obligations.RetPopsTheTopEntry : Prop :=
  EncodedAs .ret 0x00EE ∧ ∀ (s : State),
    (0 < s.sp.val → ∃ (t : State), exec .ret s = .next t ∧ t.sp.val = s.sp.val - 1 ∧
      (∀ k : Fin 16, k.val + 1 = s.sp.val → t.pc = s.stack[k]) ∧ (∀ k : Fin 16, t.stack[k] = s.stack[k]) ∧
      KeepsRegsExcept [] s t ∧ t.i = s.i ∧ KeepsMemory s t ∧ KeepsStatus s t ∧ t.collab = s.collab) ∧
    (s.sp.val = 0 → ∃ (t : State), exec .ret s = .next t ∧ FaultEntered .stackUnderflow s t)

/-- O26. A call followed immediately by a return, as two steps of the machine: the program counter is at the
instruction after the call, `sp` is as before, and the slot keeps the return address (R117 (f); for the slot the
spec's own decision D13, log entry 9). -/
def Obligations.CallThenReturnComesBack : Prop :=
  ∀ (s : State) nnn, s.run = .running → s.sp.val < 16 → s.fetch = some (encode (.call nnn)) → nnn ≠ 0xFFF →
    wordOfBytes (Memory.read s.mem nnn.toNat) (Memory.read s.mem (nnn.toNat + 1)) = 0x00EE →
    ∃ t : State, Sys2Proof.core.run 2 s = .next t ∧ PcAdvanced 2 s t ∧ t.sp = s.sp ∧
      (∀ k : Fin 16, k.val = s.sp.val → t.stack[k] = t.pc) ∧
      KeepsRegsExcept [] s t ∧ t.i = s.i ∧ KeepsMemory s t ∧ KeepsStatus s t ∧ t.collab = s.collab

/-- O27. `SEI` and `SNEI`: the program counter is 4 further when the comparison holds, 2 otherwise, modulo 4096, and
nothing else changes (R113, R114). -/
def Obligations.ImmediateSkips : Prop :=
  ∀ x kk, EncodedAs (.sei x kk) (0x3000 + x.index.val * 256 + kk.toNat) ∧
    EncodedAs (.snei x kk) (0x4000 + x.index.val * 256 + kk.toNat) ∧ ∀ (s : State),
    (∃ (t : State), exec (.sei x kk) s = .next t ∧ PcAdvanced (if s.reg x = kk then 4 else 2) s t ∧ OnlyRegsAndPc [] s t) ∧
    ∃ (t : State), exec (.snei x kk) s = .next t ∧ PcAdvanced (if s.reg x = kk then 2 else 4) s t ∧ OnlyRegsAndPc [] s t

/-- O28. `SER` and `SNER`, the skips that compare two registers; the words beside them, last nibble not 0, stand for no
instruction (R115, R116). -/
def Obligations.RegisterSkips : Prop :=
  ∀ x y, EncodedAs (.ser x y) (0x5000 + x.index.val * 256 + y.index.val * 16) ∧
    EncodedAs (.sner x y) (0x9000 + x.index.val * 256 + y.index.val * 16) ∧
    (∀ d, 0 < d → d < 16 → decodeWord (BitVec.ofNat 16 (0x5000 + x.index.val * 256 + y.index.val * 16 + d)) = none ∧
      decodeWord (BitVec.ofNat 16 (0x9000 + x.index.val * 256 + y.index.val * 16 + d)) = none) ∧
    ∀ (s : State),
    (∃ (t : State), exec (.ser x y) s = .next t ∧ PcAdvanced (if s.reg x = s.reg y then 4 else 2) s t ∧
      OnlyRegsAndPc [] s t) ∧
    ∃ (t : State), exec (.sner x y) s = .next t ∧ PcAdvanced (if s.reg x = s.reg y then 2 else 4) s t ∧ OnlyRegsAndPc [] s t

/-! ## Immediates, the index register, the ALU -/

/-- O29. `LDI` and `ADDI`: the destination gets the immediate, or the sum modulo 256; no other register changes, the
flag register among them unless it is the destination (R120, R121). -/
def Obligations.ImmediatesWriteOneRegister : Prop :=
  ∀ x kk, EncodedAs (.ldi x kk) (0x6000 + x.index.val * 256 + kk.toNat) ∧
    EncodedAs (.addi x kk) (0x7000 + x.index.val * 256 + kk.toNat) ∧ ∀ (s : State),
    (∃ (t : State), exec (.ldi x kk) s = .next t ∧ t.reg x = kk ∧ PcAdvanced 2 s t ∧ OnlyRegsAndPc [x] s t) ∧
    ∃ (t : State), exec (.addi x kk) s = .next t ∧ (t.reg x).toNat = ((s.reg x).toNat + kk.toNat) % 256 ∧
      PcAdvanced 2 s t ∧ OnlyRegsAndPc [x] s t

/-- O30. `LDIX nnn`: the index register is `nnn`, its upper four bits zero, and nothing else but the program counter
changes (R122; the upper bits are the spec's own decision D23, log entry 9). -/
def Obligations.LdixSetsTheIndexRegister : Prop :=
  ∀ nnn, EncodedAs (.ldix nnn) (0xA000 + nnn.toNat) ∧ ∀ (s : State), ∃ (t : State), exec (.ldix nnn) s = .next t ∧
    t.i.toNat = nnn.toNat ∧ PcAdvanced 2 s t ∧ KeepsRegsExcept [] s t ∧ KeepsStack s t ∧ KeepsMemory s t ∧
    KeepsStatus s t ∧ t.collab = s.collab

/-- O31. `MOV`, `OR`, `AND`, `XOR`: the result bit by bit from the operands as they were, one register written, the
flag register untouched unless it is the destination (R125, R127 to R130). -/
def Obligations.LogicalOperations : Prop :=
  ∀ x y, EncodedAs (.mov x y) (0x8000 + x.index.val * 256 + y.index.val * 16) ∧
    EncodedAs (.or x y) (0x8001 + x.index.val * 256 + y.index.val * 16) ∧
    EncodedAs (.and x y) (0x8002 + x.index.val * 256 + y.index.val * 16) ∧
    EncodedAs (.xor x y) (0x8003 + x.index.val * 256 + y.index.val * 16) ∧ ∀ (s : State),
    (∃ (t : State), exec (.mov x y) s = .next t ∧ t.reg x = s.reg y ∧ PcAdvanced 2 s t ∧ OnlyRegsAndPc [x] s t) ∧
    (∃ (t : State), exec (.or x y) s = .next t ∧
      (∀ k, (t.reg x).getLsbD k = ((s.reg x).getLsbD k || (s.reg y).getLsbD k)) ∧
      PcAdvanced 2 s t ∧ OnlyRegsAndPc [x] s t) ∧
    (∃ (t : State), exec (.and x y) s = .next t ∧
      (∀ k, (t.reg x).getLsbD k = ((s.reg x).getLsbD k && (s.reg y).getLsbD k)) ∧
      PcAdvanced 2 s t ∧ OnlyRegsAndPc [x] s t) ∧
    ∃ (t : State), exec (.xor x y) s = .next t ∧
      (∀ k, (t.reg x).getLsbD k = ((s.reg x).getLsbD k != (s.reg y).getLsbD k)) ∧
      PcAdvanced 2 s t ∧ OnlyRegsAndPc [x] s t

/-- O32. `ADD`: the sum modulo 256 in the destination and the carry in `VF`; with `x = VF` the flag survives and the
sum is lost (R125, R131; the case `x = VF` is the spec's own decision D8, in R126; log entry 9). -/
def Obligations.AddWritesSumAndCarry : Prop :=
  ∀ x y, EncodedAs (.add x y) (0x8004 + x.index.val * 256 + y.index.val * 16) ∧ ∀ (s : State),
    ∃ (t : State), exec (.add x y) s = .next t ∧
      (x ≠ .VF → (t.reg x).toNat = ((s.reg x).toNat + (s.reg y).toNat) % 256) ∧
      t.reg .VF = (if (s.reg x).toNat + (s.reg y).toNat > 255 then 1 else 0) ∧
      PcAdvanced 2 s t ∧ OnlyRegsAndPc [x, .VF] s t

/-- O33. `SUB` and `SUBN`: the difference modulo 256 in the destination and 1 on BORROW in `VF`; with `x = VF` the
flag survives (R125, R132, R134; the case `x = VF` is the spec's own decision D8, in R126, and the borrow of `SUBN` its
own inference, in R134; log entry 9). -/
def Obligations.SubtractionsWriteDifferenceAndBorrow : Prop :=
  ∀ x y, EncodedAs (.sub x y) (0x8005 + x.index.val * 256 + y.index.val * 16) ∧
    EncodedAs (.subn x y) (0x8007 + x.index.val * 256 + y.index.val * 16) ∧ ∀ (s : State),
    (∃ (t : State), exec (.sub x y) s = .next t ∧
      (x ≠ .VF → ((t.reg x).toNat : Int) = (((s.reg x).toNat : Int) - ((s.reg y).toNat : Int)) % 256) ∧
      t.reg .VF = (if (s.reg x).toNat < (s.reg y).toNat then 1 else 0) ∧
      PcAdvanced 2 s t ∧ OnlyRegsAndPc [x, .VF] s t) ∧
    ∃ (t : State), exec (.subn x y) s = .next t ∧
      (x ≠ .VF → ((t.reg x).toNat : Int) = (((s.reg y).toNat : Int) - ((s.reg x).toNat : Int)) % 256) ∧
      t.reg .VF = (if (s.reg y).toNat < (s.reg x).toNat then 1 else 0) ∧
      PcAdvanced 2 s t ∧ OnlyRegsAndPc [x, .VF] s t

/-- O34. `SHR` and `SHL`: halved or doubled modulo 256, the flag being bit 7 of the old value for `SHR` and bit 0 for
`SHL`; the `y` field has no effect; with `x = VF` the flag survives (R81, R133, R135; the case `x = VF` is the spec's
own decision D8, in R126; log entry 9). -/
def Obligations.ShiftsWriteTheirFlagBit : Prop :=
  ∀ x y, EncodedAs (.shr x y) (0x8006 + x.index.val * 256 + y.index.val * 16) ∧
    EncodedAs (.shl x y) (0x800E + x.index.val * 256 + y.index.val * 16) ∧ ∀ (s : State),
    (∃ (t : State), exec (.shr x y) s = .next t ∧ (x ≠ .VF → (t.reg x).toNat = (s.reg x).toNat / 2) ∧
      (t.reg .VF).toNat = (s.reg x).toNat / 128 ∧ PcAdvanced 2 s t ∧ OnlyRegsAndPc [x, .VF] s t ∧
      ∀ y', exec (.shr x y') s = .next t) ∧
    ∃ (t : State), exec (.shl x y) s = .next t ∧ (x ≠ .VF → (t.reg x).toNat = 2 * (s.reg x).toNat % 256) ∧
      (t.reg .VF).toNat = (s.reg x).toNat % 2 ∧ PcAdvanced 2 s t ∧ OnlyRegsAndPc [x, .VF] s t ∧
      ∀ y', exec (.shl x y') s = .next t

/-! ## Whole-machine rules over all instructions -/

/-- O35. What any core instruction leaves: every register it does not name as its destination (and `VF`, unless it
is one of the five flag writers), every byte of memory, the collaborator port, and the index register unless it is
`LDIX` (R21, R29, R37, R51). -/
def Obligations.CoreInstructionsKeepTheRest : Prop :=
  ∀ i (s t : State), i.isCore = true → exec i s = .next t →
    KeepsRegsExcept i.writes s t ∧ KeepsMemory s t ∧ t.collab = s.collab ∧
    ((∀ nnn, i ≠ .ldix nnn) → t.i = s.i)

/-- O36. No instruction but `CALL` and `RET` reads or writes the call stack or the stack pointer, a delegated one
served by any collaborator included: run with another stack, it does the same and leaves that other stack
(R30, R31; for the delegated instructions the frame is the spec's own decision D11, in R142 and R143, and the port is
the model's, log entries 1 to 3). -/
def Obligations.OnlyCallAndRetSeeTheStack : Prop :=
  ∀ i (s t : State) stack sp, (∀ nnn, i ≠ .call nnn) → i ≠ .ret → exec i s = .next t →
    exec i { s with stack := stack, sp := sp } = .next { t with stack := stack, sp := sp }

/-- O37. No core instruction reads the index register: run with another value of it, a core instruction other than
`LDIX` does the same and leaves that value, and `LDIX` does the same (R29). -/
def Obligations.NoCoreInstructionReadsTheIndex : Prop :=
  ∀ i (s t : State) w, i.isCore = true → exec i s = .next t →
    exec i { s with i := w } =
      .next (match i with
        | .ldix _ => t
        | _ => { t with i := w })

/-! ## The delegated instructions -/

/-- O38. With no collaborator attached (`COLLAB_NULL`) every request is answered with no writes, and each of `CLS`,
`SYS`, `JPO`, `RND`, `DRW`, `KEY`, `EXT` changes only the program counter, to `addr_add(a, 2)` (R145, the spec's own
decision D11; log entry 1). -/
def Obligations.NullCollaboratorOnlyAdvances : Prop :=
  ∀ req (s : State), s.collab = .detached → s.collabAnswer req = .done [] ∧
    ∃ (t : State), exec (requestInstr req) s = .next t ∧ PcAdvanced 2 s t ∧ OnlyRegsAndPc [] s t

/-- O39. Whatever writes a collaborator answers with, in range, each of `CLS`, `SYS`, `JPO`, `RND`, `DRW`, `KEY`, `EXT`
commits exactly them: every place written once holds what was written, every place not written is as before (the
program counter advanced), and the call stack, `RUN` and `FAULT` are as before (R143, the spec's own decision D11).
The answer is the port's, attached and free, mocked, or null: the port is the model's own (log entries 1 to 4). -/
def Obligations.CollaboratorWritesAreCommitted : Prop :=
  ∀ req (s : State) ws, s.collabAnswer req = .done ws → (∀ k b, .reg k b ∈ ws → k < 16) → (∀ j b, .mem j b ∈ ws → j < 4096) →
    ∃ (t : State), exec (requestInstr req) s = .next t ∧ KeepsStack s t ∧ KeepsStatus s t ∧
      (∀ (r : Reg) b, .reg r.index.val b ∈ ws → (∀ b', .reg r.index.val b' ∈ ws → b' = b) → t.reg r = b) ∧
      (∀ r : Reg, (∀ b, .reg r.index.val b ∉ ws) → t.reg r = s.reg r) ∧
      (∀ a b, .mem a b ∈ ws → (∀ b', .mem a b' ∈ ws → b' = b) → Memory.read t.mem a = b) ∧
      (∀ a, (∀ b, .mem a b ∉ ws) → Memory.read t.mem a = Memory.read s.mem a) ∧
      (∀ w, .index w ∈ ws → (∀ w', .index w' ∈ ws → w' = w) → t.i = w) ∧
      ((∀ w, .index w ∉ ws) → t.i = s.i) ∧
      (∀ p, .pc p ∈ ws → (∀ p', .pc p' ∈ ws → p' = p) → t.pc = p) ∧
      ((∀ p, .pc p ∉ ws) → PcAdvanced 2 s t)

/-- O40. A collaborator that reads out of bounds, or asks for a register index of 16 or more or a memory index of
4096 or more, makes the step the fault `OutOfBounds` with nothing committed; and no collaborator can do anything
else to `RUN` and `FAULT` (R144). That a read out of bounds is the collaborator's report is the model's own form
(log entry 14). -/
def Obligations.CollaboratorOutOfBoundsCommitsNothing : Prop :=
  (∀ req (s : State), (s.collabAnswer req = .outOfBounds ∨ ∃ ws, s.collabAnswer req = .done ws ∧
      ((∃ k b, .reg k b ∈ ws ∧ 16 ≤ k) ∨ ∃ j b, .mem j b ∈ ws ∧ 4096 ≤ j)) →
    ∃ (t : State), exec (requestInstr req) s = .next t ∧ FaultEntered .outOfBounds s t) ∧
  ∀ req (s t : State), exec (requestInstr req) s = .next t → KeepsStatus s t ∨ FaultEntered .outOfBounds s t

/-- O41. A collaborator's store over the next instruction is seen by the very next fetch (R63, the spec's own
inference; the answer is taken from the model's port, log entries 1 to 4). -/
def Obligations.StoredInstructionIsFetchedNext : Prop :=
  ∀ (s : State) req hi lo, s.run = .running → s.pc.toNat + 3 < 4096 → s.fetch = some (encode (requestInstr req)) →
    wellFormed (requestInstr req) = true →
    s.collabAnswer req = .done [.mem (s.pc.toNat + 2) hi, .mem (s.pc.toNat + 3) lo] →
    ∃ (t : State), step s = .next t ∧ t.run = .running ∧ PcAdvanced 2 s t ∧ t.fetch = some (wordOfBytes hi lo)

/-! ## Memory and the host port -/

/-- O42. `MemRead` and `MemWrite` for one and two bytes: big-endian, checked against 4096 on every byte and never
wrapped, a refused write writing nothing, an accepted one changing only its own bytes (R52, R58, R59). -/
def Obligations.MemoryPrimitivesAreBoundedAndBigEndian : Prop :=
  (∀ m a, (a + 1 ≤ 4096 → Memory.read1 m a = some (Memory.read m a)) ∧ (4096 < a + 1 → Memory.read1 m a = none) ∧
    (a + 2 ≤ 4096 → ∃ w, Memory.read2 m a = some w ∧
      w.toNat = (Memory.read m a).toNat * 256 + (Memory.read m (a + 1)).toNat) ∧
    (4096 < a + 2 → Memory.read2 m a = none)) ∧
  (∀ m a b, (a + 1 ≤ 4096 → ∃ m', Memory.write1 m a b = some m' ∧ Memory.read m' a = b ∧
      ∀ c, c ≠ a → Memory.read m' c = Memory.read m c) ∧
    (4096 < a + 1 → Memory.write1 m a b = none)) ∧
  ∀ m a (w : Word), (a + 2 ≤ 4096 → ∃ m', Memory.write2 m a w = some m' ∧
      (Memory.read m' a).toNat = w.toNat / 256 ∧ (Memory.read m' (a + 1)).toNat = w.toNat % 256 ∧
      ∀ c, c ≠ a → c ≠ a + 1 → Memory.read m' c = Memory.read m c) ∧
    (4096 < a + 2 → Memory.write2 m a w = none)

/-- O43. Two memories in canonical form that read alike are equal: the model's memory says nothing but what is read
from it (the model's own convention, log entry 5). -/
def Obligations.CanonicalMemoriesAreTheirBytes : Prop :=
  ∀ m n, Memory.wf m → Memory.wf n → (∀ a, Memory.read m a = Memory.read n a) → m = n

/-- O44. `LoadInstructions`: in bounds, word `j` lies at `off + 2j`, high byte first, every other byte and everything
but memory is as before, and the next free offset is returned; out of bounds it is refused whole (R65; the refusal
is the spec's own decision D24, in R66; log entry 12). -/
def Obligations.LoadInstructionsIsWholeOrRefused : Prop :=
  ∀ (s : State) off ws,
    (off + 2 * ws.length ≤ 4096 → ∃ m, s.loadInstructions off ws = .loaded { s with mem := m } (off + 2 * ws.length) ∧
      (∀ j (h : j < ws.length), (Memory.read m (off + 2 * j)).toNat = ws[j].toNat / 256 ∧
        (Memory.read m (off + 2 * j + 1)).toNat = ws[j].toNat % 256) ∧
      ∀ a, a < off ∨ off + 2 * ws.length ≤ a → Memory.read m a = Memory.read s.mem a) ∧
    (0 < ws.length → 4096 < off + 2 * ws.length → s.loadInstructions off ws = .outOfBounds)

/-- O45. A program loaded at `off` and launched there is what runs: the launch state is Running, meets the invariant,
and its first fetch is the program's first word (R65, R176, R177; the launch value of the program counter is the
spec's own decision D3, in R178; log entry 7; the canonical form of memory in the invariant is the model's own, log
entry 5). -/
def Obligations.LaunchedProgramIsFetched : Prop :=
  ∀ (entry : Addr) w ws, entry.toNat + 2 * (ws.length + 1) ≤ 4096 →
    ∃ (s : State), launchState [.loadInstructions entry.toNat (w :: ws)] entry = some s ∧ s.fetch = some w ∧
      s.run = .running ∧ s.pc = entry ∧ s.Inv

/-- O46. Whatever the host does before launch, loads, presets and attachments in any order, a launch state is
Running with no fault recorded and meets the invariant (R176; the presets are the spec's own decision D22, in R179,
the refused loads its decision D24, in R66; log entry 12; the canonical form of memory in the invariant is the
model's own, log entry 5). -/
def Obligations.EveryLaunchStateMeetsInvariant : Prop :=
  ∀ acts entry (s : State), launchState acts entry = some s →
    s.run = .running ∧ s.fault = .none ∧ s.pc = entry ∧ s.Inv

/-- O47. A word placed for the next step is what the next step runs, from any state (the model's own operation
`withFetchWord`, log entry 6). -/
def Obligations.PlacedWordIsRunNext : Prop :=
  ∀ (s : State) w i, decodeTableWord 16 w = some i → step (s.withFetchWord 16 w) = exec i (s.withFetchWord 16 w)

/-- O48. Running into bytes nothing has written halts and does not fault: the run ends normally and is safe
(R19, R105; that unwritten bytes are a `HALT` is the spec's own inference, in R42; log entry 9). -/
def Obligations.UnwrittenMemoryEndsTheRun : Prop :=
  ∀ (s : State), s.run = .running → s.pc ≠ 0xFFF → Memory.read s.mem s.pc.toNat = 0 → Memory.read s.mem (s.pc.toNat + 1) = 0 →
    EndsNormally s ∧ SafeRun s

/-- O49. A jump to itself runs for ever: after any number of steps the state is the same, Running
(R19, R101, R111). -/
def Obligations.JumpToItselfNeverEnds : Prop :=
  ∀ (s : State), s.run = .running → s.fetch = some (encode (.jp s.pc)) → ∀ k, Sys2Proof.core.run k s = .next s

/-! ## Flags and stack faults, over all instructions -/

/-- O50. The flag properties the source states for the ALU, for a destination that is not the flag register, and the
one the spec adds for `SUBN`; after each of the five `VF` is 0 or 1 (R138). -/
def Obligations.FlagPropertiesOfTheAlu : Prop :=
  ∀ x y (s : State), x ≠ .VF →
    (∃ (t : State), exec (.add x y) s = .next t ∧ (t.reg .VF = 0 ∨ t.reg .VF = 1) ∧
      (t.reg .VF = 1 ↔ (s.reg x).toNat + (s.reg y).toNat > 255)) ∧
    (∃ (t : State), exec (.sub x y) s = .next t ∧ (t.reg .VF = 0 ∨ t.reg .VF = 1) ∧
      (t.reg .VF = 1 ↔ (s.reg x).toNat < (s.reg y).toNat)) ∧
    (∃ (t : State), exec (.shr x y) s = .next t ∧ (t.reg .VF = 0 ∨ t.reg .VF = 1) ∧
      (t.reg .VF = 1 ↔ (s.reg x).getLsbD 7 = true)) ∧
    (∃ (t : State), exec (.shl x y) s = .next t ∧ (t.reg .VF = 0 ∨ t.reg .VF = 1) ∧
      (t.reg .VF = 1 ↔ (s.reg x).getLsbD 0 = true)) ∧
    ∃ (t : State), exec (.subn x y) s = .next t ∧ (t.reg .VF = 0 ∨ t.reg .VF = 1) ∧
      (t.reg .VF = 1 ↔ (s.reg y).toNat < (s.reg x).toNat)

/-- O51. The stack faults: among all instructions only `CALL` with `sp = 16` raises `StackOverflow` and only `RET` with
`sp = 0` raises `StackUnderflow`; each leaves `pc` at its own address and all else but the fault record as it was
(R156, R157). -/
def Obligations.StackFaultsHaveOneCauseEach : Prop :=
  ∀ i (s t : State), s.fault = .none → exec i s = .next t →
    (t.fault = .stackOverflow ↔ (∃ nnn, i = .call nnn) ∧ s.sp.val = 16) ∧
    (t.fault = .stackUnderflow ↔ i = .ret ∧ s.sp.val = 0) ∧
    (t.fault = .stackOverflow ∨ t.fault = .stackUnderflow → t.run = .faulted ∧ t = { s with run := t.run, fault := t.fault })
end

