-- ==== Sys2Proof/Laws/State.lean ====
section
/-! SUPPORT. One lemma per field per update of State, each true by `rfl`, so that no proof unfolds a record
update. -/

namespace Sys2Proof.Machine

/-! ### setReg -/

@[simp] theorem State.setReg_v (s : State) (r : Reg) (b : Byte) : (s.setReg r b).v = s.v.set r.index b := rfl
@[simp] theorem State.setReg_pc (s : State) (r : Reg) (b : Byte) : (s.setReg r b).pc = s.pc := rfl
@[simp] theorem State.setReg_i (s : State) (r : Reg) (b : Byte) : (s.setReg r b).i = s.i := rfl
@[simp] theorem State.setReg_stack (s : State) (r : Reg) (b : Byte) : (s.setReg r b).stack = s.stack := rfl
@[simp] theorem State.setReg_sp (s : State) (r : Reg) (b : Byte) : (s.setReg r b).sp = s.sp := rfl
@[simp] theorem State.setReg_mem (s : State) (r : Reg) (b : Byte) : (s.setReg r b).mem = s.mem := rfl
@[simp] theorem State.setReg_run (s : State) (r : Reg) (b : Byte) : (s.setReg r b).run = s.run := rfl
@[simp] theorem State.setReg_fault (s : State) (r : Reg) (b : Byte) : (s.setReg r b).fault = s.fault := rfl
@[simp] theorem State.setReg_collab (s : State) (r : Reg) (b : Byte) : (s.setReg r b).collab = s.collab := rfl

/-! ### setResultAndFlag -/

@[simp] theorem State.setResultAndFlag_v (s : State) (x : Reg) (a f : Byte) : (s.setResultAndFlag x a f).v = (s.v.set x.index a).set Reg.flag.index f := rfl
@[simp] theorem State.setResultAndFlag_pc (s : State) (x : Reg) (a f : Byte) : (s.setResultAndFlag x a f).pc = s.pc := rfl
@[simp] theorem State.setResultAndFlag_i (s : State) (x : Reg) (a f : Byte) : (s.setResultAndFlag x a f).i = s.i := rfl
@[simp] theorem State.setResultAndFlag_stack (s : State) (x : Reg) (a f : Byte) : (s.setResultAndFlag x a f).stack = s.stack := rfl
@[simp] theorem State.setResultAndFlag_sp (s : State) (x : Reg) (a f : Byte) : (s.setResultAndFlag x a f).sp = s.sp := rfl
@[simp] theorem State.setResultAndFlag_mem (s : State) (x : Reg) (a f : Byte) : (s.setResultAndFlag x a f).mem = s.mem := rfl
@[simp] theorem State.setResultAndFlag_run (s : State) (x : Reg) (a f : Byte) : (s.setResultAndFlag x a f).run = s.run := rfl
@[simp] theorem State.setResultAndFlag_fault (s : State) (x : Reg) (a f : Byte) : (s.setResultAndFlag x a f).fault = s.fault := rfl
@[simp] theorem State.setResultAndFlag_collab (s : State) (x : Reg) (a f : Byte) : (s.setResultAndFlag x a f).collab = s.collab := rfl

/-! ### setIndex -/

@[simp] theorem State.setIndex_v (s : State) (w : Index) : (s.setIndex w).v = s.v := rfl
@[simp] theorem State.setIndex_pc (s : State) (w : Index) : (s.setIndex w).pc = s.pc := rfl
@[simp] theorem State.setIndex_i (s : State) (w : Index) : (s.setIndex w).i = w := rfl
@[simp] theorem State.setIndex_stack (s : State) (w : Index) : (s.setIndex w).stack = s.stack := rfl
@[simp] theorem State.setIndex_sp (s : State) (w : Index) : (s.setIndex w).sp = s.sp := rfl
@[simp] theorem State.setIndex_mem (s : State) (w : Index) : (s.setIndex w).mem = s.mem := rfl
@[simp] theorem State.setIndex_run (s : State) (w : Index) : (s.setIndex w).run = s.run := rfl
@[simp] theorem State.setIndex_fault (s : State) (w : Index) : (s.setIndex w).fault = s.fault := rfl
@[simp] theorem State.setIndex_collab (s : State) (w : Index) : (s.setIndex w).collab = s.collab := rfl

/-! ### setPc -/

@[simp] theorem State.setPc_v (s : State) (t : Addr) : (s.setPc t).v = s.v := rfl
@[simp] theorem State.setPc_pc (s : State) (t : Addr) : (s.setPc t).pc = t := rfl
@[simp] theorem State.setPc_i (s : State) (t : Addr) : (s.setPc t).i = s.i := rfl
@[simp] theorem State.setPc_stack (s : State) (t : Addr) : (s.setPc t).stack = s.stack := rfl
@[simp] theorem State.setPc_sp (s : State) (t : Addr) : (s.setPc t).sp = s.sp := rfl
@[simp] theorem State.setPc_mem (s : State) (t : Addr) : (s.setPc t).mem = s.mem := rfl
@[simp] theorem State.setPc_run (s : State) (t : Addr) : (s.setPc t).run = s.run := rfl
@[simp] theorem State.setPc_fault (s : State) (t : Addr) : (s.setPc t).fault = s.fault := rfl
@[simp] theorem State.setPc_collab (s : State) (t : Addr) : (s.setPc t).collab = s.collab := rfl

/-! ### advance -/

@[simp] theorem State.advance_v (s : State) : (s.advance).v = s.v := rfl
@[simp] theorem State.advance_pc (s : State) : (s.advance).pc = s.npc := rfl
@[simp] theorem State.advance_i (s : State) : (s.advance).i = s.i := rfl
@[simp] theorem State.advance_stack (s : State) : (s.advance).stack = s.stack := rfl
@[simp] theorem State.advance_sp (s : State) : (s.advance).sp = s.sp := rfl
@[simp] theorem State.advance_mem (s : State) : (s.advance).mem = s.mem := rfl
@[simp] theorem State.advance_run (s : State) : (s.advance).run = s.run := rfl
@[simp] theorem State.advance_fault (s : State) : (s.advance).fault = s.fault := rfl
@[simp] theorem State.advance_collab (s : State) : (s.advance).collab = s.collab := rfl

/-! ### skip -/

@[simp] theorem State.skip_v (s : State) : (s.skip).v = s.v := rfl
@[simp] theorem State.skip_pc (s : State) : (s.skip).pc = s.npc := rfl
@[simp] theorem State.skip_i (s : State) : (s.skip).i = s.i := rfl
@[simp] theorem State.skip_stack (s : State) : (s.skip).stack = s.stack := rfl
@[simp] theorem State.skip_sp (s : State) : (s.skip).sp = s.sp := rfl
@[simp] theorem State.skip_mem (s : State) : (s.skip).mem = s.mem := rfl
@[simp] theorem State.skip_run (s : State) : (s.skip).run = s.run := rfl
@[simp] theorem State.skip_fault (s : State) : (s.skip).fault = s.fault := rfl
@[simp] theorem State.skip_collab (s : State) : (s.skip).collab = s.collab := rfl

/-! ### takeFault -/

@[simp] theorem State.takeFault_v (s : State) (f : FaultRecord) : (s.takeFault f).v = s.v := rfl
@[simp] theorem State.takeFault_pc (s : State) (f : FaultRecord) : (s.takeFault f).pc = s.pc := rfl
@[simp] theorem State.takeFault_i (s : State) (f : FaultRecord) : (s.takeFault f).i = s.i := rfl
@[simp] theorem State.takeFault_stack (s : State) (f : FaultRecord) : (s.takeFault f).stack = s.stack := rfl
@[simp] theorem State.takeFault_sp (s : State) (f : FaultRecord) : (s.takeFault f).sp = s.sp := rfl
@[simp] theorem State.takeFault_mem (s : State) (f : FaultRecord) : (s.takeFault f).mem = s.mem := rfl
@[simp] theorem State.takeFault_run (s : State) (f : FaultRecord) : (s.takeFault f).run = .faulted := rfl
@[simp] theorem State.takeFault_fault (s : State) (f : FaultRecord) : (s.takeFault f).fault = f := rfl
@[simp] theorem State.takeFault_collab (s : State) (f : FaultRecord) : (s.takeFault f).collab = s.collab := rfl

/-! ### skipIf -/

@[simp] theorem State.skipIf_v (s : State) (c : Bool) : (s.skipIf c).v = s.v := by
  cases c <;> rfl
@[simp] theorem State.skipIf_i (s : State) (c : Bool) : (s.skipIf c).i = s.i := by
  cases c <;> rfl
@[simp] theorem State.skipIf_stack (s : State) (c : Bool) : (s.skipIf c).stack = s.stack := by
  cases c <;> rfl
@[simp] theorem State.skipIf_sp (s : State) (c : Bool) : (s.skipIf c).sp = s.sp := by
  cases c <;> rfl
@[simp] theorem State.skipIf_mem (s : State) (c : Bool) : (s.skipIf c).mem = s.mem := by
  cases c <;> rfl
@[simp] theorem State.skipIf_run (s : State) (c : Bool) : (s.skipIf c).run = s.run := by
  cases c <;> rfl
@[simp] theorem State.skipIf_fault (s : State) (c : Bool) : (s.skipIf c).fault = s.fault := by
  cases c <;> rfl
@[simp] theorem State.skipIf_collab (s : State) (c : Bool) : (s.skipIf c).collab = s.collab := by
  cases c <;> rfl
@[simp] theorem State.skipIf_true (s : State) : s.skipIf true = s.skip := rfl
@[simp] theorem State.skipIf_false (s : State) : s.skipIf false = s := rfl

end Sys2Proof.Machine
end

