-- ==== Sys2Proof/Laws/Registers.lean ====
section
/-! SUPPORT. The register numbering is a bijection, and the laws of reading and writing one register. -/

namespace Sys2Proof

@[simp] theorem Reg.ofIndex_index (r : Reg) : Reg.ofIndex r.index = r := by cases r <;> rfl

@[simp] theorem Reg.index_ofIndex (k : Fin 16) : (Reg.ofIndex k).index = k := by revert k; decide

theorem Reg.index_injective {r q : Reg} (h : r.index = q.index) : r = q := by
  rw [← Reg.ofIndex_index r, h, Reg.ofIndex_index]

@[simp] theorem Reg.index_inj {r q : Reg} : r.index = q.index ↔ r = q := ⟨Reg.index_injective, fun h => h ▸ rfl⟩

@[simp] theorem Reg.flag_eq : Reg.flag = .VF := rfl

@[simp] theorem Reg.ofNibble_nibble (r : Reg) : Reg.ofNibble r.nibble = r := by cases r <;> rfl

@[simp] theorem Reg.nibble_ofNibble (n : Nibble) : (Reg.ofNibble n).nibble = n := by
  revert n; decide

@[simp] theorem Reg.toNat_nibble (r : Reg) : r.nibble.toNat = r.index.val := rfl

theorem Reg.ofNat?_of_lt {k : Nat} (h : k < 16) : Reg.ofNat? k = some (Reg.ofIndex ⟨k, h⟩) := dif_pos h

theorem Reg.ofNat?_of_ge {k : Nat} (h : 16 ≤ k) : Reg.ofNat? k = none := dif_neg (by omega)

@[simp] theorem Reg.ofNat?_index (r : Reg) : Reg.ofNat? r.index.val = some r := by
  rw [Reg.ofNat?_of_lt r.index.isLt, Reg.ofIndex_index]

end Sys2Proof

namespace Sys2Proof.Machine

/-! ### Read after write -/

theorem State.reg_setReg (s : State) (r q : Reg) (b : Byte) :
    (s.setReg r b).reg q = if q = r then b else s.reg q := by
  simp only [State.reg, State.setReg_v, Fin.getElem_fin, Vector.getElem_set]
  by_cases h : q = r
  · simp [h]
  · have : ¬ r.index.val = q.index.val := fun e => h (Reg.index_injective (Fin.ext e)).symm
    simp [h, this]

@[simp] theorem State.reg_setReg_self (s : State) (r : Reg) (b : Byte) : (s.setReg r b).reg r = b := by
  simp [State.reg_setReg]

theorem State.reg_setReg_of_ne (s : State) {r q : Reg} (b : Byte) (h : q ≠ r) : (s.setReg r b).reg q = s.reg q := by
  simp [State.reg_setReg, h]

/-- The flag write survives and the result is seen only when `x` is not `VF` (R126). -/
theorem State.reg_setResultAndFlag (s : State) (x q : Reg) (a f : Byte) :
    (s.setResultAndFlag x a f).reg q = if q = .VF then f else if q = x then a else s.reg q := by
  simp [State.setResultAndFlag, State.reg_setReg]

/-! ### Updates of other fields leave every register -/

@[simp] theorem State.reg_setIndex (s : State) (w : Index) (q : Reg) : (s.setIndex w).reg q = s.reg q := rfl
@[simp] theorem State.reg_setPc (s : State) (t : Addr) (q : Reg) : (s.setPc t).reg q = s.reg q := rfl
@[simp] theorem State.reg_advance (s : State) (q : Reg) : s.advance.reg q = s.reg q := rfl
@[simp] theorem State.reg_skip (s : State) (q : Reg) : s.skip.reg q = s.reg q := rfl
@[simp] theorem State.reg_skipIf (s : State) (c : Bool) (q : Reg) : (s.skipIf c).reg q = s.reg q := by
  cases c <;> rfl
@[simp] theorem State.reg_takeFault (s : State) (f : FaultRecord) (q : Reg) : (s.takeFault f).reg q = s.reg q := rfl

end Sys2Proof.Machine
end

