-- ==== Sys2Proof/Laws/Assembly.lean ====
section
/-! SUPPORT. What each part of the assembler accepts, said once: an accepted operand is the number given, and a
shape's constructor has the token as its mnemonic and its operands as the numbers. -/

namespace Sys2Proof

theorem toNat_of_operandOfNat {w n : Nat} {b : BitVec w} (h : operandOfNat w n = some b) : b.toNat = n := by
  unfold operandOfNat at h
  split at h
  · rename_i hlt; cases h; simp [Nat.mod_eq_of_lt hlt]
  · cases h

@[simp] theorem operandOfNat_toNat {w : Nat} (b : BitVec w) : operandOfNat w b.toNat = some b := by
  simp [operandOfNat, b.isLt]

theorem index_of_ofNat? {n : Nat} {r : Reg} (h : Reg.ofNat? n = some r) : r.index.val = n := by
  unfold Reg.ofNat? at h
  split at h
  · cases h; simp
  · cases h

theorem assembleNNN_cases {make : Addr → Instr} {n : Nat} {i : Instr} (h : assembleNNN make n = some i) :
    ∃ a, a.toNat = n ∧ i = make a := by
  simp only [assembleNNN, Option.map_eq_some_iff] at h
  obtain ⟨a, ha, rfl⟩ := h
  exact ⟨a, toNat_of_operandOfNat ha, rfl⟩

theorem assembleXKK_cases {make : Reg → Byte → Instr} {x k : Nat} {i : Instr} (h : assembleXKK make x k = some i) :
    ∃ r b, r.index.val = x ∧ b.toNat = k ∧ i = make r b := by
  unfold assembleXKK at h
  split at h
  · rename_i r b hr hb; cases h; exact ⟨r, b, index_of_ofNat? hr, toNat_of_operandOfNat hb, rfl⟩
  · cases h

theorem assembleXYD_cases {make : Reg → Reg → Instr} {x y : Nat} {i : Instr} (h : assembleXYD make x y = some i) :
    ∃ r q, r.index.val = x ∧ q.index.val = y ∧ i = make r q := by
  unfold assembleXYD at h
  split at h
  · rename_i r q hr hq; cases h; exact ⟨r, q, index_of_ofNat? hr, index_of_ofNat? hq, rfl⟩
  · cases h

theorem assembleXYN_cases {make : Reg → Reg → Nibble → Instr} {x y d : Nat} {i : Instr}
    (h : assembleXYN make x y d = some i) :
    ∃ r q n, r.index.val = x ∧ q.index.val = y ∧ n.toNat = d ∧ i = make r q n := by
  unfold assembleXYN at h
  split at h
  · rename_i r q n hr hq hn
    cases h; exact ⟨r, q, n, index_of_ofNat? hr, index_of_ofNat? hq, toNat_of_operandOfNat hn, rfl⟩
  · cases h

theorem makeN0_spec {token : String} {i : Instr} (h : makeN0 token = some i) :
    i.mnemonic = token ∧ i.operands = [] := by
  unfold makeN0 at h
  split_ifs at h <;> cases h <;> subst_vars <;> exact ⟨rfl, rfl⟩

theorem makeNNN_spec {token : String} {make : Addr → Instr} (h : makeNNN token = some make) (n : Addr) :
    (make n).mnemonic = token ∧ (make n).operands = [n.toNat] := by
  unfold makeNNN at h
  split_ifs at h <;> cases h <;> subst_vars <;> exact ⟨rfl, rfl⟩

theorem makeXKK_spec {token : String} {make : Reg → Byte → Instr} (h : makeXKK token = some make) (x : Reg)
    (k : Byte) : (make x k).mnemonic = token ∧ (make x k).operands = [x.index.val, k.toNat] := by
  unfold makeXKK at h
  split_ifs at h <;> cases h <;> subst_vars <;> exact ⟨rfl, rfl⟩

theorem makeXYD_spec {token : String} {make : Reg → Reg → Instr} (h : makeXYD token = some make) (x y : Reg) :
    (make x y).mnemonic = token ∧ (make x y).operands = [x.index.val, y.index.val] := by
  unfold makeXYD at h
  split_ifs at h <;> cases h <;> subst_vars <;> exact ⟨rfl, rfl⟩

theorem makeShift_spec {token : String} {make : Reg → Reg → Instr} (h : makeShift token = some make) :
    (token = "SHR" ∨ token = "SHL") ∧
    ∀ x y, (make x y).mnemonic = token ∧ (make x y).operands = [x.index.val, y.index.val] := by
  unfold makeShift at h
  split_ifs at h <;> cases h <;> subst_vars
  · exact ⟨.inl rfl, fun _ _ => ⟨rfl, rfl⟩⟩
  · exact ⟨.inr rfl, fun _ _ => ⟨rfl, rfl⟩⟩

theorem makeXYN_spec {token : String} {make : Reg → Reg → Nibble → Instr} (h : makeXYN token = some make)
    (x y : Reg) (d : Nibble) :
    (make x y d).mnemonic = token ∧ (make x y d).operands = [x.index.val, y.index.val, d.toNat] := by
  unfold makeXYN at h
  split_ifs at h; cases h; subst_vars; exact ⟨rfl, rfl⟩

end Sys2Proof
end

