-- ==== Sys2Proof/Laws/Decode.lean ====
section
/-! SUPPORT. The decoder by arithmetic on the word: the fields and the encoders as numbers, and the dispatch table as
one case split on the family nibble and the last nibble, proved equal to the ordered table. -/

namespace Sys2Proof

open Machine

/-! ### Concatenation and the fields, as numbers -/

theorem toNat_append_eq {m n : Nat} (a : BitVec m) (b : BitVec n) : (a ++ b).toNat = a.toNat * 2 ^ n + b.toNat := by
  rw [BitVec.toNat_append, ← Nat.shiftLeft_add_eq_or_of_lt b.isLt, Nat.shiftLeft_eq]

theorem toNat_fieldC (w : Word) : (fieldC w).toNat = w.toNat / 4096 := by
  have := w.isLt
  simp [fieldC, Nat.shiftRight_eq_div_pow]; omega

theorem toNat_fieldX (w : Word) : (fieldX w).toNat = w.toNat / 256 % 16 := by
  simp [fieldX, Nat.shiftRight_eq_div_pow]

theorem toNat_fieldY (w : Word) : (fieldY w).toNat = w.toNat / 16 % 16 := by
  simp [fieldY, Nat.shiftRight_eq_div_pow]

theorem toNat_fieldD (w : Word) : (fieldD w).toNat = w.toNat % 16 := by
  simp [fieldD, Nat.shiftRight_eq_div_pow]

theorem toNat_fieldKK (w : Word) : (fieldKK w).toNat = w.toNat % 256 := by
  simp only [fieldKK, toNat_append_eq, toNat_fieldY, toNat_fieldD]; omega

theorem toNat_fieldNNN (w : Word) : (fieldNNN w).toNat = w.toNat % 4096 := by
  simp only [fieldNNN, addrPack, toNat_append_eq, toNat_fieldY, toNat_fieldD, toNat_fieldX]; omega

/-! ### The encoders, as numbers (R83) -/

theorem toNat_encodeNNN (c : Nibble) (nnn : Addr) : (encodeNNN c nnn).toNat = c.toNat * 4096 + nnn.toNat := by
  simp only [encodeNNN, toNat_append_eq]; omega

theorem toNat_encodeXKK (c : Nibble) (x : Reg) (kk : Byte) :
    (encodeXKK c x kk).toNat = c.toNat * 4096 + x.index.val * 256 + kk.toNat := by
  simp only [encodeXKK, toNat_append_eq, Reg.toNat_nibble]; omega

theorem toNat_encodeXYD (c : Nibble) (x y : Reg) (d : Nibble) :
    (encodeXYD c x y d).toNat = c.toNat * 4096 + x.index.val * 256 + y.index.val * 16 + d.toNat := by
  simp only [encodeXYD, toNat_append_eq, Reg.toNat_nibble]; omega

theorem operandX_eq_of {w : Word} {x : Reg} (h : w.toNat / 256 % 16 = x.index.val) : operandX w = x := by
  have : fieldX w = x.nibble := BitVec.eq_of_toNat_eq (by rw [toNat_fieldX, h, Reg.toNat_nibble])
  rw [operandX, this, Reg.ofNibble_nibble]

theorem operandY_eq_of {w : Word} {y : Reg} (h : w.toNat / 16 % 16 = y.index.val) : operandY w = y := by
  have : fieldY w = y.nibble := BitVec.eq_of_toNat_eq (by rw [toNat_fieldY, h, Reg.toNat_nibble])
  rw [operandY, this, Reg.ofNibble_nibble]

theorem toNat_operandX (w : Word) : (operandX w).index.val = w.toNat / 256 % 16 := by
  rw [← toNat_fieldX, operandX, ← Reg.toNat_nibble, Reg.nibble_ofNibble]

theorem toNat_operandY (w : Word) : (operandY w).index.val = w.toNat / 16 % 16 := by
  rw [← toNat_fieldY, operandY, ← Reg.toNat_nibble, Reg.nibble_ofNibble]

/-! ### Each shape's encoder and its fields undo each other -/

@[simp] theorem fieldNNN_encodeNNN (c : Nibble) (nnn : Addr) : fieldNNN (encodeNNN c nnn) = nnn :=
  BitVec.eq_of_toNat_eq (by rw [toNat_fieldNNN, toNat_encodeNNN]; omega)

@[simp] theorem operandX_encodeXKK (c : Nibble) (x : Reg) (kk : Byte) : operandX (encodeXKK c x kk) = x :=
  operandX_eq_of (by rw [toNat_encodeXKK]; omega)

@[simp] theorem fieldKK_encodeXKK (c : Nibble) (x : Reg) (kk : Byte) : fieldKK (encodeXKK c x kk) = kk :=
  BitVec.eq_of_toNat_eq (by rw [toNat_fieldKK, toNat_encodeXKK]; omega)

@[simp] theorem operandX_encodeXYD (c : Nibble) (x y : Reg) (d : Nibble) : operandX (encodeXYD c x y d) = x :=
  operandX_eq_of (by rw [toNat_encodeXYD]; omega)

@[simp] theorem operandY_encodeXYD (c : Nibble) (x y : Reg) (d : Nibble) : operandY (encodeXYD c x y d) = y :=
  operandY_eq_of (by rw [toNat_encodeXYD]; omega)

@[simp] theorem fieldD_encodeXYD (c : Nibble) (x y : Reg) (d : Nibble) : fieldD (encodeXYD c x y d) = d :=
  BitVec.eq_of_toNat_eq (by rw [toNat_fieldD, toNat_encodeXYD]; omega)

theorem encodeNNN_fieldNNN {w : Word} {c : Nibble} (h : w.toNat / 4096 = c.toNat) :
    encodeNNN c (fieldNNN w) = w :=
  BitVec.eq_of_toNat_eq (by rw [toNat_encodeNNN, toNat_fieldNNN]; omega)

theorem encodeXKK_fields {w : Word} {c : Nibble} (h : w.toNat / 4096 = c.toNat) :
    encodeXKK c (operandX w) (fieldKK w) = w :=
  BitVec.eq_of_toNat_eq (by rw [toNat_encodeXKK, toNat_fieldKK, toNat_operandX]; omega)

theorem encodeXYD_fields {w : Word} {c d : Nibble} (h : w.toNat / 4096 = c.toNat) (hd : w.toNat % 16 = d.toNat) :
    encodeXYD c (operandX w) (operandY w) d = w :=
  BitVec.eq_of_toNat_eq (by rw [toNat_encodeXYD, toNat_operandX, toNat_operandY]; omega)

/-- Laying a word out as bytes and reading it back gives the word (R53, R71). -/
@[simp] theorem wordOfBytes_high_low (w : Word) : wordOfBytes (highByte w) (lowByte w) = w := by
  have := w.isLt
  refine BitVec.eq_of_toNat_eq ?_
  simp only [wordOfBytes, toNat_append_eq, highByte, lowByte, BitVec.extractLsb'_toNat, Nat.shiftRight_eq_div_pow]
  omega

/-! ### The masks of the table -/

theorem and_F000 (w : Word) : (w &&& (0xF000 : Word)).toNat = w.toNat / 4096 * 4096 := by
  have h : w &&& (0xF000 : Word) = (w >>> 12) <<< 12 := by
    ext i hi
    interval_cases i <;> simp
  have := w.isLt
  rw [h]; simp [Nat.shiftRight_eq_div_pow, Nat.shiftLeft_eq]; omega

theorem and_000F (w : Word) : (w &&& (0x000F : Word)).toNat = w.toNat % 16 := by
  rw [BitVec.toNat_and]; exact Nat.and_two_pow_sub_one_eq_mod w.toNat 4

theorem and_F00F (w : Word) : (w &&& (0xF00F : Word)).toNat = w.toNat / 4096 * 4096 + w.toNat % 16 := by
  have h : w &&& (0xF00F : Word) = (w &&& (0xF000 : Word)) + (w &&& (0x000F : Word)) := by
    rw [BitVec.add_eq_or_of_and_eq_zero]
    · ext i hi; interval_cases i <;> simp
    · ext i hi; interval_cases i <;> simp
  have := w.isLt
  rw [h, BitVec.toNat_add, and_F000, and_000F]; omega

theorem beq_toNat (a e : Word) : (a == e) = decide (a.toNat = e.toNat) := by
  rw [Bool.eq_iff_iff]; simp only [beq_iff_eq, decide_eq_true_eq, BitVec.toNat_inj]

theorem beq_F000 (w e : Word) : ((w &&& 0xF000) == e) = decide (w.toNat / 4096 * 4096 = e.toNat) := by
  rw [beq_toNat, and_F000]

theorem beq_F00F (w e : Word) : ((w &&& 0xF00F) == e) =
    (decide (w.toNat / 4096 = e.toNat / 4096) && decide (w.toNat % 16 = e.toNat % 4096)) := by
  rw [beq_toNat, and_F00F, Bool.eq_iff_iff]
  simp only [decide_eq_true_eq, Bool.and_eq_true]
  omega

theorem beq_FFFF (w e : Word) : ((w &&& 0xFFFF) == e) = decide (w.toNat = e.toNat) := by
  have : w &&& 0xFFFF = w := BitVec.and_allOnes
  rw [beq_toNat, this]

/-! ### The table as one case split -/

/-- The instruction of a word, by its family nibble and, in families 5, 8 and 9, its last nibble (R76 to R80). -/
def decodeByFamily (w : Word) : Option Instr :=
  match w.toNat / 4096 with
  | 0 => if w.toNat = 0x0000 then some .halt else if w.toNat = 0x00E0 then some .cls
    else if w.toNat = 0x00EE then some .ret else some (.sys (fieldNNN w))
  | 1 => some (.jp (fieldNNN w))
  | 2 => some (.call (fieldNNN w))
  | 3 => some (.sei (operandX w) (fieldKK w))
  | 4 => some (.snei (operandX w) (fieldKK w))
  | 5 => if w.toNat % 16 = 0 then some (.ser (operandX w) (operandY w)) else none
  | 6 => some (.ldi (operandX w) (fieldKK w))
  | 7 => some (.addi (operandX w) (fieldKK w))
  | 8 => match w.toNat % 16 with
    | 0x0 => some (.mov (operandX w) (operandY w))
    | 0x1 => some (.or (operandX w) (operandY w))
    | 0x2 => some (.and (operandX w) (operandY w))
    | 0x3 => some (.xor (operandX w) (operandY w))
    | 0x4 => some (.add (operandX w) (operandY w))
    | 0x5 => some (.sub (operandX w) (operandY w))
    | 0x6 => some (.shr (operandX w) (operandY w))
    | 0x7 => some (.subn (operandX w) (operandY w))
    | 0xE => some (.shl (operandX w) (operandY w))
    | _ => none
  | 9 => if w.toNat % 16 = 0 then some (.sner (operandX w) (operandY w)) else none
  | 0xA => some (.ldix (fieldNNN w))
  | 0xB => some (.jpo (fieldNNN w))
  | 0xC => some (.rnd (operandX w) (fieldKK w))
  | 0xD => some (.drw (operandX w) (operandY w) (fieldD w))
  | 0xE => some (.key (operandX w) (fieldKK w))
  | 0xF => some (.ext (operandX w) (fieldKK w))
  | _ => none

/-- The ordered table selects what the case split says: the three exact rows of family 0 come before `SYS`, and the
other rows do not overlap (R77). -/
theorem decodeWord_eq (w : Word) : decodeWord w = decodeByFamily w := by
  have hw := w.isLt
  have hc : w.toNat / 4096 < 16 := by omega
  have hd : w.toNat % 16 < 16 := by omega
  have hE : w.toNat / 4096 = 0 ∨ 4096 ≤ w.toNat := by omega
  simp only [decodeWord, dispatchRow?, dispatchTable, dispatchFamily0, dispatchFamilies1to7, dispatchFamily8,
    dispatchFamilies9toF, List.cons_append, List.nil_append, List.find?, DispatchRow.selects, beq_F000, beq_F00F,
    beq_FFFF, decodeByFamily]
  rcases hE with h0 | hE
  · simp only [h0]
    by_cases h1 : w.toNat = 0
    · simp [h1]
    by_cases h2 : w.toNat = 0xE0
    · simp [h2]
    by_cases h3 : w.toNat = 0xEE
    · simp [h3]
    simp [h1, h2, h3]
  · have h1 : ¬ w.toNat = 0 := by omega
    have h2 : ¬ w.toNat = 224 := by omega
    have h3 : ¬ w.toNat = 238 := by omega
    have hc0 : 0 < w.toNat / 4096 := by omega
    generalize w.toNat / 4096 = c at hc hc0 ⊢
    generalize w.toNat % 16 = d at hd ⊢
    interval_cases c
    rotate_left 7
    · simp [h1, h2, h3]
      interval_cases d <;> simp
    all_goals simp [h1, h2, h3]
    all_goals by_cases h : d = 0 <;> simp [h]

end Sys2Proof
end

