-- ==== Sys2Proof/Laws/Memory.lean ====
section
/-! SUPPORT. The laws of memory: read after write, and that every memory operation keeps the canonical form. -/

namespace Sys2Proof.Machine

/-! ### Reading -/

@[simp] theorem Memory.read_nil (a : Nat) : Memory.read [] a = 0 := rfl

theorem Memory.read_of_not_listed {m : Memory} {a : Nat} (h : ∀ c ∈ m, c.1 ≠ a) : Memory.read m a = 0 := by
  induction m with
  | nil => rfl
  | cons c rest ih =>
    have hc : c.1 ≠ a := h c (by simp)
    simpa [Memory.read, hc] using ih fun d hd => h d (by simp [hd])

theorem Memory.read_filter_of_ne (m : Memory) {a a' : Nat} (h : a' ≠ a) :
    Memory.read (m.filter fun c => c.1 != a) a' = Memory.read m a' := by
  induction m with
  | nil => rfl
  | cons c rest ih =>
    by_cases hc : c.1 = a
    · have : c.1 ≠ a' := fun e => h (e.symm.trans hc)
      simpa [List.filter_cons, hc, Memory.read, Ne.symm h] using ih
    · by_cases ha : c.1 = a' <;> simp_all [Memory.read]

theorem Memory.read_insert {m : Memory} {a : Nat} (b : Byte) (h : ∀ c ∈ m, c.1 ≠ a) (a' : Nat) :
    Memory.read (Memory.insert m a b) a' = if a' = a then b else Memory.read m a' := by
  induction m with
  | nil => simp [Memory.insert, Memory.read, Memory.unlisted, eq_comm]
  | cons c rest ih =>
    have hc : c.1 ≠ a := h c (by simp)
    have ih := ih fun d hd => h d (by simp [hd])
    unfold Memory.insert
    split
    · simp [Memory.read, eq_comm]
    · by_cases ha : c.1 = a'
      · simp [Memory.read, ha, ha ▸ hc]
      · simp [Memory.read, ha, ih]

theorem Memory.not_listed_filter (m : Memory) (a : Nat) : ∀ c ∈ m.filter (fun c => c.1 != a), c.1 ≠ a := by
  intro c hc
  simpa using (List.mem_filter.1 hc).2

/-- The whole effect of one write, seen through reads. -/
theorem Memory.read_write (m : Memory) (a : Nat) (b : Byte) (a' : Nat) :
    Memory.read (Memory.write m a b) a' = if a' = a then b else Memory.read m a' := by
  have hl := Memory.not_listed_filter m a
  by_cases hb : b = Memory.unlisted
  · by_cases ha : a' = a
    · simp [Memory.write, hb, ha, Memory.read_of_not_listed hl, Memory.unlisted]
    · simp [Memory.write, hb, ha, Memory.read_filter_of_ne m ha]
  · by_cases ha : a' = a
    · simp [Memory.write, hb, ha, Memory.read_insert b hl]
    · simp [Memory.write, hb, ha, Memory.read_insert b hl, Memory.read_filter_of_ne m ha]

@[simp] theorem Memory.read_write_self (m : Memory) (a : Nat) (b : Byte) :
    Memory.read (Memory.write m a b) a = b := by simp [Memory.read_write]

theorem Memory.read_write_of_ne (m : Memory) {a a' : Nat} (b : Byte) (h : a' ≠ a) :
    Memory.read (Memory.write m a b) a' = Memory.read m a' := by simp [Memory.read_write, h]

/-- A byte outside the bytes written reads as before. -/
theorem Memory.read_writeBytes_outside (m : Memory) (a : Nat) (bs : List Byte) {a' : Nat}
    (h : a' < a ∨ a + bs.length ≤ a') : Memory.read (Memory.writeBytes m a bs) a' = Memory.read m a' := by
  induction bs generalizing m a with
  | nil => rfl
  | cons b rest ih =>
    simp only [List.length_cons] at h
    rw [Memory.writeBytes, ih _ _ (by omega), Memory.read_write_of_ne _ _ (by omega)]

/-- Byte `j` of the bytes written reads as byte `j`. -/
theorem Memory.read_writeBytes_inside (m : Memory) (a : Nat) (bs : List Byte) {j : Nat} (h : j < bs.length) :
    Memory.read (Memory.writeBytes m a bs) (a + j) = bs[j] := by
  induction bs generalizing m a j with
  | nil => simp at h
  | cons b rest ih =>
    rw [Memory.writeBytes]
    cases j with
    | zero => rw [Memory.read_writeBytes_outside _ _ _ (by omega)]; simp
    | succ k =>
      have := ih (Memory.write m a b) (a + 1) (j := k) (by simpa using h)
      rw [show a + (k + 1) = a + 1 + k by omega, this]; rfl

/-! ### The canonical form -/

theorem Memory.wf_nil : Memory.wf [] := ⟨List.Pairwise.nil, by simp⟩

theorem Memory.wf_filter {m : Memory} (h : Memory.wf m) (p : Host.Cell → Bool) : Memory.wf (m.filter p) :=
  ⟨h.1.filter p, fun c hc => h.2 c (List.mem_of_mem_filter hc)⟩

theorem Memory.mem_insert {m : Memory} {a : Nat} {b : Byte} {c : Host.Cell} :
    c ∈ Memory.insert m a b ↔ c = (a, b) ∨ c ∈ m := by
  induction m with
  | nil => simp [Memory.insert]
  | cons d rest ih =>
    unfold Memory.insert
    split
    · simp
    · simp only [List.mem_cons, ih]; tauto

theorem Memory.wf_insert {m : Memory} (h : Memory.wf m) {a : Nat} {b : Byte} (hl : ∀ c ∈ m, c.1 ≠ a)
    (ha : a < Config.memSize) (hb : b ≠ Memory.unlisted) : Memory.wf (Memory.insert m a b) := by
  refine ⟨?_, fun c hc => ?_⟩
  · obtain ⟨hp, -⟩ := h
    induction m with
    | nil => simp [Memory.insert]
    | cons d rest ih =>
      obtain ⟨hd, hr⟩ := List.pairwise_cons.1 hp
      have hda : d.1 ≠ a := hl d (by simp)
      unfold Memory.insert
      split
      · rename_i hlt
        refine List.pairwise_cons.2 ⟨fun c hc => ?_, hp⟩
        rcases List.mem_cons.1 hc with rfl | hc
        · exact hlt
        · exact Nat.lt_trans hlt (hd c hc)
      · rename_i hlt
        refine List.pairwise_cons.2 ⟨fun c hc => ?_, ih (fun c hc => hl c (by simp [hc])) hr⟩
        rcases Memory.mem_insert.1 hc with rfl | hc
        · show d.1 < a; omega
        · exact hd c hc
  · rcases Memory.mem_insert.1 hc with rfl | hc
    · exact ⟨ha, hb⟩
    · exact h.2 c hc

/-- A write at an index that exists keeps the canonical form. -/
theorem Memory.wf_write {m : Memory} (h : Memory.wf m) {a : Nat} (ha : a < Config.memSize) (b : Byte) :
    Memory.wf (Memory.write m a b) := by
  have hf := Memory.wf_filter h fun c => c.1 != a
  unfold Memory.write
  split
  · exact hf
  · exact Memory.wf_insert hf (Memory.not_listed_filter m a) ha ‹_›

/-- Bytes written inside the memory keep the canonical form. -/
theorem Memory.wf_writeBytes {m : Memory} (h : Memory.wf m) {a : Nat} (bs : List Byte)
    (ha : a + bs.length ≤ Config.memSize) : Memory.wf (Memory.writeBytes m a bs) := by
  induction bs generalizing m a with
  | nil => exact h
  | cons b rest ih =>
    simp only [List.length_cons] at ha
    exact ih (Memory.wf_write h (by omega) b) (by omega)

/-- `MemWrite` of one byte keeps the canonical form. -/
theorem Memory.wf_write1 {m m' : Memory} {a : Nat} {b : Byte} (h : Memory.wf m)
    (hw : Memory.write1 m a b = some m') : Memory.wf m' := by
  unfold Memory.write1 at hw
  split at hw
  · rename_i hin
    cases hw
    exact Memory.wf_write h (by simpa [inBounds, Nat.succ_le_iff] using hin) b
  · cases hw

/-- `MemWrite` of two bytes keeps the canonical form. -/
theorem Memory.wf_write2 {m m' : Memory} {a : Nat} {w : Word} (h : Memory.wf m)
    (hw : Memory.write2 m a w = some m') : Memory.wf m' := by
  unfold Memory.write2 at hw
  split at hw
  · rename_i hin
    cases hw
    exact Memory.wf_writeBytes h _ (by simpa [inBounds] using hin)
  · cases hw

end Sys2Proof.Machine
end

