-- ==== Sys2Proof/Laws/Ops.lean ====
section
/-! SUPPORT. What each shared operation can do, said once: the address arithmetic, the call stack, the fetch and the
collaborator port. -/

namespace Sys2Proof.Machine

/-! ### The address unit and the program counter -/

@[simp] theorem toNat_addrOfNat (n : Nat) : (addrOfNat n).toNat = n % 4096 := by simp [addrOfNat]

@[simp] theorem toNat_addrAdd (a : Addr) (k : Nat) : (addrAdd a k).toNat = (a.toNat + k) % 4096 := by simp [addrAdd]

@[simp] theorem State.toNat_npc (s : State) : s.npc.toNat = (s.pc.toNat + 2) % 4096 := by simp [State.npc]

theorem State.toNat_skipIf_pc (s : State) (c : Bool) :
    (s.advance.skipIf c).pc.toNat = (s.pc.toNat + if c then 4 else 2) % 4096 := by
  cases c <;> simp [Nat.add_assoc]

/-! ### The call stack -/

theorem State.push_of_lt (s : State) (r : Addr) (h : s.sp.val < 16) :
    s.push r = some { s with stack := s.stack.set s.sp.val r, sp := ⟨s.sp.val + 1, by omega⟩ } := dif_pos h

theorem State.push_of_full (s : State) (r : Addr) (h : s.sp.val = 16) : s.push r = none := dif_neg (by omega)

theorem State.pop_of_pos (s : State) (h : 0 < s.sp.val) :
    s.pop = some (s.stack[s.sp.val - 1]'(by omega), { s with sp := ⟨s.sp.val - 1, by omega⟩ }) := dif_pos h

theorem State.pop_of_empty (s : State) (h : s.sp.val = 0) : s.pop = none := dif_neg (by omega)

/-! ### The fetch -/

theorem State.fetch_of_ne (s : State) (h : s.pc ≠ 0xFFF) :
    s.fetch = some (wordOfBytes (Memory.read s.mem s.pc.toNat) (Memory.read s.mem (s.pc.toNat + 1))) := by
  have hlt := s.pc.isLt
  have : s.pc.toNat ≠ 4095 := fun e => h (BitVec.eq_of_toNat_eq (by simpa using e))
  have hin : inBounds s.pc.toNat 2 = true := by simp only [inBounds, Config.memSize, decide_eq_true_eq]; omega
  simp [State.fetch, addrIndex, Memory.read2, hin]

theorem State.fetch_at_top (s : State) (h : s.pc = 0xFFF) : s.fetch = none := by
  simp [State.fetch, addrIndex, Memory.read2, inBounds, h]

theorem State.fetch_eq_none_iff (s : State) : s.fetch = none ↔ s.pc = 0xFFF := by
  refine ⟨fun h => ?_, State.fetch_at_top s⟩
  by_contra hp
  simp [State.fetch_of_ne s hp] at h

/-! ### The collaborator port -/

@[simp] theorem State.consumePort_v (s : State) : s.consumePort.v = s.v := rfl
@[simp] theorem State.consumePort_pc (s : State) : s.consumePort.pc = s.pc := rfl
@[simp] theorem State.consumePort_i (s : State) : s.consumePort.i = s.i := rfl
@[simp] theorem State.consumePort_stack (s : State) : s.consumePort.stack = s.stack := rfl
@[simp] theorem State.consumePort_sp (s : State) : s.consumePort.sp = s.sp := rfl
@[simp] theorem State.consumePort_mem (s : State) : s.consumePort.mem = s.mem := rfl
@[simp] theorem State.consumePort_run (s : State) : s.consumePort.run = s.run := rfl
@[simp] theorem State.consumePort_fault (s : State) : s.consumePort.fault = s.fault := rfl
@[simp] theorem State.consumePort_collab (s : State) : s.consumePort.collab = s.collab.consumed := rfl
@[simp] theorem State.reg_consumePort (s : State) (q : Reg) : s.consumePort.reg q = s.reg q := rfl

@[simp] theorem State.applyWrites_nil (s : State) : s.applyWrites [] = s := rfl

@[simp] theorem State.applyWrites_cons (s : State) (w : CollabWrite) (ws : List CollabWrite) :
    s.applyWrites (w :: ws) = (s.applyWrite w).applyWrites ws := rfl

/-- The frame of one write: no write reaches the call stack, the status registers or the port (R143). -/
theorem State.applyWrite_frame (s : State) (w : CollabWrite) :
    (s.applyWrite w).stack = s.stack ∧ (s.applyWrite w).sp = s.sp ∧ (s.applyWrite w).run = s.run ∧
      (s.applyWrite w).fault = s.fault ∧ (s.applyWrite w).collab = s.collab := by
  cases w with
  | reg k b => simp only [State.applyWrite]; split <;> simp
  | index w => simp [State.applyWrite]
  | pc t => simp [State.applyWrite]
  | mem j b => simp [State.applyWrite]

/-- The frame of a collaborator's writes (R143). -/
theorem State.applyWrites_frame (s : State) (ws : List CollabWrite) :
    (s.applyWrites ws).stack = s.stack ∧ (s.applyWrites ws).sp = s.sp ∧ (s.applyWrites ws).run = s.run ∧
      (s.applyWrites ws).fault = s.fault ∧ (s.applyWrites ws).collab = s.collab := by
  induction ws generalizing s with
  | nil => simp
  | cons w rest ih =>
    obtain ⟨h1, h2, h3, h4, h5⟩ := ih (s.applyWrite w)
    obtain ⟨g1, g2, g3, g4, g5⟩ := s.applyWrite_frame w
    simp [h1, h2, h3, h4, h5, g1, g2, g3, g4, g5]

/-- Writes within bounds keep memory canonical. -/
theorem State.wf_applyWrites {s : State} (h : Memory.wf s.mem) {ws : List CollabWrite}
    (hb : ws.all writeInBounds = true) : Memory.wf (s.applyWrites ws).mem := by
  induction ws generalizing s with
  | nil => exact h
  | cons w rest ih =>
    simp only [List.all_cons, Bool.and_eq_true] at hb
    refine ih ?_ hb.2
    cases w with
    | reg k b => simp only [State.applyWrite]; split <;> exact h
    | index w => exact h
    | pc t => exact h
    | mem j b => exact Memory.wf_write h (by simpa [writeInBounds, inBounds, Nat.succ_le_iff] using hb.1) b

/-- Everything a delegated instruction can do (R141 to R144): its writes are all in bounds and are committed over
the advanced state, or the step is the fault `OutOfBounds` with nothing committed. -/
theorem State.delegate_cases (s : State) (req : CollabRequest) :
    (∃ ws, s.collabAnswer req = .done ws ∧ ws.all writeInBounds = true ∧
      s.delegate req = s.advance.consumePort.applyWrites ws) ∨
    ((s.collabAnswer req = .outOfBounds ∨ ∃ ws, s.collabAnswer req = .done ws ∧ ws.all writeInBounds = false) ∧
      s.delegate req = s.takeFault .outOfBounds) := by
  unfold State.delegate
  cases h : s.collabAnswer req with
  | outOfBounds => exact .inr ⟨.inl rfl, rfl⟩
  | done ws =>
    by_cases hb : ws.all writeInBounds = true
    · exact .inl ⟨ws, rfl, hb, if_pos hb⟩
    · exact .inr ⟨.inr ⟨ws, rfl, by simpa using hb⟩, if_neg hb⟩

end Sys2Proof.Machine
end

