-- ==== Sys2Proof/Laws/PerInstr.lean ====
section
/-! SUPPORT. The family `EncodeSelectsRow`: the word of every instruction has the mask and the match of the dispatch
row that bears its mnemonic (R76, R83, R86). -/

namespace Sys2Proof.Laws.EncodeSelectsRow

/-- The encoded word selects the row of the instruction's own mnemonic. -/
def Statement (i : Instr) : Prop := ∃ r ∈ dispatchTable, r.mnemonic = i.mnemonic ∧ r.selects (encode i) = true

theorem selects_NNN (r : DispatchRow) (c : Nibble) (nnn : Addr) (hm : r.mask = 0xF000)
    (he : r.expected.toNat = c.toNat * 4096) : r.selects (encodeNNN c nnn) = true := by
  simp only [DispatchRow.selects, hm, beq_F000, toNat_encodeNNN, he, decide_eq_true_eq]; omega

theorem selects_XKK (r : DispatchRow) (c : Nibble) (x : Reg) (kk : Byte) (hm : r.mask = 0xF000)
    (he : r.expected.toNat = c.toNat * 4096) : r.selects (encodeXKK c x kk) = true := by
  simp only [DispatchRow.selects, hm, beq_F000, toNat_encodeXKK, he, decide_eq_true_eq]; omega

theorem selects_XYN (r : DispatchRow) (c : Nibble) (x y : Reg) (d : Nibble) (hm : r.mask = 0xF000)
    (he : r.expected.toNat = c.toNat * 4096) : r.selects (encodeXYD c x y d) = true := by
  simp only [DispatchRow.selects, hm, beq_F000, toNat_encodeXYD, he, decide_eq_true_eq]; omega

theorem selects_XYD (r : DispatchRow) (c : Nibble) (x y : Reg) (d : Nibble) (hm : r.mask = 0xF00F)
    (he : r.expected.toNat = c.toNat * 4096 + d.toNat) : r.selects (encodeXYD c x y d) = true := by
  simp only [DispatchRow.selects, hm, beq_F00F, toNat_encodeXYD, he, decide_eq_true_eq, Bool.and_eq_true]; omega

theorem halt : Statement (.halt) :=
  ⟨dispatchTable[0]'(by decide), List.getElem_mem _, rfl, by decide⟩
theorem cls : Statement (.cls) :=
  ⟨dispatchTable[1]'(by decide), List.getElem_mem _, rfl, by decide⟩
theorem ret : Statement (.ret) :=
  ⟨dispatchTable[2]'(by decide), List.getElem_mem _, rfl, by decide⟩
theorem sys (nnn : Addr) : Statement (.sys nnn) :=
  ⟨dispatchTable[3]'(by decide), List.getElem_mem _, rfl, selects_NNN _ _ _ rfl rfl⟩
theorem jp (nnn : Addr) : Statement (.jp nnn) :=
  ⟨dispatchTable[4]'(by decide), List.getElem_mem _, rfl, selects_NNN _ _ _ rfl rfl⟩
theorem call (nnn : Addr) : Statement (.call nnn) :=
  ⟨dispatchTable[5]'(by decide), List.getElem_mem _, rfl, selects_NNN _ _ _ rfl rfl⟩
theorem sei (x : Reg) (kk : Byte) : Statement (.sei x kk) :=
  ⟨dispatchTable[6]'(by decide), List.getElem_mem _, rfl, selects_XKK _ _ _ _ rfl rfl⟩
theorem snei (x : Reg) (kk : Byte) : Statement (.snei x kk) :=
  ⟨dispatchTable[7]'(by decide), List.getElem_mem _, rfl, selects_XKK _ _ _ _ rfl rfl⟩
theorem ser (x y : Reg) : Statement (.ser x y) :=
  ⟨dispatchTable[8]'(by decide), List.getElem_mem _, rfl, selects_XYD _ _ _ _ _ rfl rfl⟩
theorem ldi (x : Reg) (kk : Byte) : Statement (.ldi x kk) :=
  ⟨dispatchTable[9]'(by decide), List.getElem_mem _, rfl, selects_XKK _ _ _ _ rfl rfl⟩
theorem addi (x : Reg) (kk : Byte) : Statement (.addi x kk) :=
  ⟨dispatchTable[10]'(by decide), List.getElem_mem _, rfl, selects_XKK _ _ _ _ rfl rfl⟩
theorem mov (x y : Reg) : Statement (.mov x y) :=
  ⟨dispatchTable[11]'(by decide), List.getElem_mem _, rfl, selects_XYD _ _ _ _ _ rfl rfl⟩
theorem or (x y : Reg) : Statement (.or x y) :=
  ⟨dispatchTable[12]'(by decide), List.getElem_mem _, rfl, selects_XYD _ _ _ _ _ rfl rfl⟩
theorem and (x y : Reg) : Statement (.and x y) :=
  ⟨dispatchTable[13]'(by decide), List.getElem_mem _, rfl, selects_XYD _ _ _ _ _ rfl rfl⟩
theorem xor (x y : Reg) : Statement (.xor x y) :=
  ⟨dispatchTable[14]'(by decide), List.getElem_mem _, rfl, selects_XYD _ _ _ _ _ rfl rfl⟩
theorem add (x y : Reg) : Statement (.add x y) :=
  ⟨dispatchTable[15]'(by decide), List.getElem_mem _, rfl, selects_XYD _ _ _ _ _ rfl rfl⟩
theorem sub (x y : Reg) : Statement (.sub x y) :=
  ⟨dispatchTable[16]'(by decide), List.getElem_mem _, rfl, selects_XYD _ _ _ _ _ rfl rfl⟩
theorem shr (x y : Reg) : Statement (.shr x y) :=
  ⟨dispatchTable[17]'(by decide), List.getElem_mem _, rfl, selects_XYD _ _ _ _ _ rfl rfl⟩
theorem subn (x y : Reg) : Statement (.subn x y) :=
  ⟨dispatchTable[18]'(by decide), List.getElem_mem _, rfl, selects_XYD _ _ _ _ _ rfl rfl⟩
theorem shl (x y : Reg) : Statement (.shl x y) :=
  ⟨dispatchTable[19]'(by decide), List.getElem_mem _, rfl, selects_XYD _ _ _ _ _ rfl rfl⟩
theorem sner (x y : Reg) : Statement (.sner x y) :=
  ⟨dispatchTable[20]'(by decide), List.getElem_mem _, rfl, selects_XYD _ _ _ _ _ rfl rfl⟩
theorem ldix (nnn : Addr) : Statement (.ldix nnn) :=
  ⟨dispatchTable[21]'(by decide), List.getElem_mem _, rfl, selects_NNN _ _ _ rfl rfl⟩
theorem jpo (nnn : Addr) : Statement (.jpo nnn) :=
  ⟨dispatchTable[22]'(by decide), List.getElem_mem _, rfl, selects_NNN _ _ _ rfl rfl⟩
theorem rnd (x : Reg) (kk : Byte) : Statement (.rnd x kk) :=
  ⟨dispatchTable[23]'(by decide), List.getElem_mem _, rfl, selects_XKK _ _ _ _ rfl rfl⟩
theorem drw (x y : Reg) (d : Nibble) : Statement (.drw x y d) :=
  ⟨dispatchTable[24]'(by decide), List.getElem_mem _, rfl, selects_XYN _ _ _ _ _ rfl rfl⟩
theorem key (x : Reg) (kk : Byte) : Statement (.key x kk) :=
  ⟨dispatchTable[25]'(by decide), List.getElem_mem _, rfl, selects_XKK _ _ _ _ rfl rfl⟩
theorem ext (x : Reg) (kk : Byte) : Statement (.ext x kk) :=
  ⟨dispatchTable[26]'(by decide), List.getElem_mem _, rfl, selects_XKK _ _ _ _ rfl rfl⟩

end Sys2Proof.Laws.EncodeSelectsRow
end

