-- ==== Sys2Proof/Laws/Step.lean ====
section
/-! SUPPORT. What a step can do, said once: the terminal states, the two faults of the engine itself, and the decoded
instruction. -/

namespace Sys2Proof.Machine

theorem step_of_terminal {s : State} (h : s.run ≠ .running) : step s = .next s := by
  unfold step
  cases hr : s.run <;> simp_all

theorem step_of_fetch_none {s : State} (hr : s.run = .running) (hf : s.fetch = none) :
    step s = .next (s.takeFault .outOfBounds) := by
  simp [step, hr, hf]

theorem step_of_decode_none {s : State} {w : Word} (hr : s.run = .running) (hf : s.fetch = some w)
    (hd : decodeWord w = none) : step s = .next (s.takeFault (.unimplementedOpcode w)) := by
  simp [step, hr, hf, hd]

theorem step_of_decode_some {s : State} {w : Word} {i : Instr} (hr : s.run = .running) (hf : s.fetch = some w)
    (hd : decodeWord w = some i) : step s = exec i s := by
  simp [step, hr, hf, hd]

/-- Everything a step can do (R98, R99). -/
theorem step_cases (s : State) :
    (s.run ≠ .running ∧ step s = .next s) ∨
    (s.run = .running ∧ s.fetch = none ∧ step s = .next (s.takeFault .outOfBounds)) ∨
    (∃ w, s.run = .running ∧ s.fetch = some w ∧ decodeWord w = none ∧
      step s = .next (s.takeFault (.unimplementedOpcode w))) ∨
    (∃ w i, s.run = .running ∧ s.fetch = some w ∧ decodeWord w = some i ∧ step s = exec i s) := by
  by_cases hr : s.run = .running
  · right
    cases hf : s.fetch with
    | none => exact .inl ⟨hr, rfl, step_of_fetch_none hr hf⟩
    | some w =>
      right
      cases hd : decodeWord w with
      | none => exact .inl ⟨w, hr, rfl, hd, step_of_decode_none hr hf hd⟩
      | some i => exact .inr ⟨w, i, hr, rfl, hd, step_of_decode_some hr hf hd⟩
  · exact .inl ⟨hr, step_of_terminal hr⟩

/-- One step more of a run. -/
theorem run_succ {s t : State} (h : step s = .next t) (k : Nat) :
    Sys2Proof.core.run (k + 1) s = Sys2Proof.core.run k t := by
  have h' : Sys2Proof.core.step s = .next t := h
  simp only [Host.Core.run, h']

/-- The seven delegated instructions are one operation (R140, R141). -/
theorem exec_requestInstr (req : CollabRequest) (s : State) :
    exec (requestInstr req) s = .next (s.delegate req) := by
  cases req <;> rfl

/-- `RET` on a stack that is not empty (R110). -/
theorem execRet_of_pos (s : State) (h : 0 < s.sp.val) :
    execRet s = .next (({ s with sp := ⟨s.sp.val - 1, by omega⟩ } : State).setPc
      (s.stack[s.sp.val - 1]'(by omega))) := by
  simp [execRet, State.pop_of_pos s h]

/-- `RET` on an empty stack (R110). -/
theorem execRet_of_empty (s : State) (h : s.sp.val = 0) : execRet s = .next (s.takeFault .stackUnderflow) := by
  simp [execRet, State.pop_of_empty s h]

/-- `CALL` on a stack that is not full (R112). -/
theorem execCall_of_lt (nnn : Addr) (s : State) (h : s.sp.val < 16) :
    execCall nnn s = .next (({ s with stack := s.stack.set s.sp.val s.npc,
                                      sp := ⟨s.sp.val + 1, by omega⟩ } : State).setPc nnn) := by
  simp [execCall, State.push_of_lt s _ h]

/-- `CALL` on a full stack (R112). -/
theorem execCall_of_full (nnn : Addr) (s : State) (h : s.sp.val = 16) :
    execCall nnn s = .next (s.takeFault .stackOverflow) := by
  simp [execCall, State.push_of_full s _ h]

end Sys2Proof.Machine
end

