-- ==== Sys2Proof/Machine/AsmText.lean ====
section
/-! DEFINITION. The assembler's text (R85): lines, labels, comments, registers, numbers and the `DW` directive,
turned into the words of a program. It has no part in a step. -/

namespace Sys2Proof

/-- An operand as it is written: a register, a number, or a label where an address is expected (R85). -/
inductive AsmOperand where
  | reg (r : Reg)
  | num (n : Nat)
  | label (name : List Char)
deriving DecidableEq, Repr

/-- What one line places: an instruction, or the raw word of `DW` (R85). -/
inductive AsmItem where
  | instr (token : String) (ops : List AsmOperand)
  | word (n : Nat)
deriving DecidableEq, Repr

/-- One line: a label before the colon, if any, and an item, if any (R85). -/
structure AsmLine where
  label : Option (List Char)
  item : Option AsmItem
deriving DecidableEq, Repr

/-! ## Characters -/

/-- A blank between the parts of a line. -/
def isBlank (c : Char) : Bool := c == ' ' || c == '\t' || c == '\r'

/-- The text without blanks at its two ends. -/
def trimBlanks (cs : List Char) : List Char :=
  ((cs.dropWhile isBlank).reverse.dropWhile isBlank).reverse

/-- The pieces of a text between separators; always at least one piece. -/
def piecesAt (sep : Char) : List Char → List (List Char)
  | [] => [[]]
  | c :: cs =>
    if c == sep then [] :: piecesAt sep cs
    else match piecesAt sep cs with
      | [] => [[c]]
      | p :: ps => (c :: p) :: ps

/-- The value of a digit: its place among the digits of its alphabet. -/
def placeIn (alphabet : String) (c : Char) : Option Nat := alphabet.toList.findIdx? (fun digit => digit == c)

/-- A decimal digit. -/
def decDigit : Char → Option Nat := placeIn "0123456789"

/-- The one hexadecimal digit of a register's name, `V0` to `VF` (R85). -/
def regDigit : Char → Option Nat := placeIn "0123456789ABCDEF"

/-- A hexadecimal digit of a number, capital or small (R85, log entry 11). -/
def hexDigit (c : Char) : Option Nat := (regDigit c).or (placeIn "0123456789abcdef" c)

/-- The number that digits of a base write after the number read so far. -/
def digitsValue (digit : Char → Option Nat) (base : Nat) : Nat → List Char → Option Nat
  | acc, [] => some acc
  | acc, c :: cs => match digit c with
    | some d => digitsValue digit base (acc * base + d) cs
    | none => none

/-! ## Operands and lines -/

/-- A number: hexadecimal with the prefix `0x`, or decimal (R85). -/
def parseNumber : List Char → Option Nat
  | '0' :: 'x' :: d :: ds => digitsValue hexDigit 16 0 (d :: ds)
  | d :: ds => digitsValue decDigit 10 0 (d :: ds)
  | [] => none

/-- A register: `V` and one hexadecimal digit (R85, R88). -/
def parseReg : List Char → Option Reg
  | ['V', c] => (regDigit c).bind Reg.ofNat?
  | _ => none

/-- An operand; what is neither a register nor a number is a label's name (R85). -/
def parseOperand (cs : List Char) : Option AsmOperand :=
  match cs with
  | [] => none
  | c :: _ =>
    match parseReg cs with
    | some r => some (.reg r)
    | none =>
      if (decDigit c).isSome then (parseNumber cs).map .num else some (.label cs)

/-- The operands of a line, separated by commas (R85). -/
def parseOperands (cs : List Char) : Option (List AsmOperand) :=
  match trimBlanks cs with
  | [] => some []
  | ds => (piecesAt ',' ds).mapM (fun p => parseOperand (trimBlanks p))

/-- The part of a line after its label: nothing, `DW` and its word, or a mnemonic and its operands (R85). -/
def parseItem (cs : List Char) : Option (Option AsmItem) :=
  match trimBlanks cs with
  | [] => some none
  | ds =>
    let token := String.ofList (ds.takeWhile (fun c => !isBlank c))
    match parseOperands (ds.dropWhile (fun c => !isBlank c)) with
    | none => none
    | some ops =>
      if token = "DW" then
        match ops with
        | [.num n] => some (some (.word n))
        | _ => none
      else some (some (.instr token ops))

/-- One line, its comment from `;` to the end left out (R85). -/
def parseLine (cs : List Char) : Option AsmLine :=
  match piecesAt ':' (cs.takeWhile (fun c => c != ';')) with
  | [body] => (parseItem body).map (fun item => ⟨none, item⟩)
  | [name, body] =>
    match trimBlanks name with
    | [] => none
    | n => (parseItem body).map (fun item => ⟨some n, item⟩)
  | _ => none

/-! ## From lines to words -/

/-- The labels of a program whose next item lies at `a`, each with the address of the next instruction (R85); a
label defined twice is refused (log entry 11). -/
def labelTable : Nat → List AsmLine → Option (List (List Char × Nat))
  | _, [] => some []
  | a, line :: rest =>
    match labelTable (a + if line.item.isSome then Config.ilen else 0) rest with
    | none => none
    | some table => match line.label with
      | none => some table
      | some name => if table.any (fun e => e.1 == name) then none else some ((name, a) :: table)

/-- The numbers of an instruction's operands: registers where the mnemonic has registers, numbers where it has
numbers, and a label only where an address is expected (R85, R86). -/
def operandNumbers (table : List (List Char × Nat)) (token : String) (ops : List AsmOperand) :
    Option (List Nat) :=
  match ops with
  | [] => some []
  | [.num n] => if (makeNNN token).isSome then some [n] else none
  | [.label l] => if (makeNNN token).isSome then (table.lookup l).map (fun a => [a]) else none
  | [.reg r] => if (makeShift token).isSome then some [r.index.val] else none
  | [.reg r, .num n] => if (makeXKK token).isSome then some [r.index.val, n] else none
  | [.reg r, .reg q] => if (makeXYD token).isSome then some [r.index.val, q.index.val] else none
  | [.reg r, .reg q, .num n] => if (makeXYN token).isSome then some [r.index.val, q.index.val, n] else none
  | _ => none

/-- The word of one item (R83, R85). -/
def itemWord (table : List (List Char × Nat)) : AsmItem → Option Word
  | .word n => operandOfNat 16 n
  | .instr token ops => ((operandNumbers table token ops).bind (assemble token)).map encode

/-- The words of a program's text, to be loaded at `base`; `none` when any line is refused (R85). -/
def assembleText (base : Nat) (text : String) : Option (List Word) :=
  match (piecesAt '\n' text.toList).mapM parseLine with
  | none => none
  | some lines => match labelTable base lines with
    | none => none
    | some table => (lines.filterMap AsmLine.item).mapM (itemWord table)

end Sys2Proof
end

