-- ==== Sys2Proof/Tests/Slice0.lean ====
section
/-! SUPPORT. The model's own tests. The expected results are the vectors of 95_test_vectors.md, named in each
comment (E, Z, T, M, L, A, H, F, Q, G, X, D and S are its tables), and, for every statement with hypotheses, a concrete
case that meets them. -/

namespace Sys2Proof.Tests

open Sys2Proof Sys2Proof.Machine

/-! ## Builders -/

/-- The reset state with one instruction word at `pc`, high byte first. -/
def placed (pc : Addr) (w : Word) : State :=
  { State.reset with pc := pc, mem := Memory.writeBytes [] pc.toNat [highByte w, lowByte w] }

/-- A state with one mocked answer at its collaborator port. -/
def mocked (a : CollabAnswer) (s : State) : State := { s with collab := .attached [a] 0 }

/-- The state after one step. -/
def after (s : State) : Option State :=
  match step s with
  | .next t => some t
  | .fault _ => none
  | .refused _ => none

/-- One step from `s` gives exactly `change s`: what `change` does not mention is unchanged. -/
abbrev StepGives (s : State) (change : State → State) : Prop := after s = some (change s)

/-! ## Sizes, well-formedness, decoding -/

/-- The thirteen values of the table of R6. -/
theorem test_config_values :
    Config.values = ⟨8, 16, 15, 12, 4096, 16, 16, 2, 0x0000, 7, 0, 1, 1⟩ ∧ Config.xlen = 8 ∧ Config.haltWord = 0 ∧
    Config.addFlagOnCarry = 1 := by decide

/-- The parameters of R6 and the widths of the types. -/
theorem test_config_widths_are_the_types_widths :
    BitVec.allOnes Config.xlen = (0xFF : Byte) ∧
    BitVec.allOnes Config.addrBits = (0xFFF : Addr) ∧ BitVec.allOnes Config.iBits = (0xFFFF : Word) ∧
    State.reset.v.toList.length = Config.nreg ∧ State.reset.stack.toList.length = Config.stackDepth ∧
    Reg.flag.index.val = Config.flagIndex ∧ Config.memSize = 2 ^ Config.addrBits ∧
    BitVec.allOnes (8 * Config.ilen) = (0xFFFF : Word) ∧ State.reset.sp ≤ Fin.last Config.stackDepth := by decide

/-- R83: the one check of well-formedness, on each operand it refuses. -/
theorem test_wellFormed_refuses_sys_000 : wellFormed (.sys 0x000) = false := by decide
theorem test_wellFormed_refuses_sys_0E0 : wellFormed (.sys 0x0E0) = false := by decide
theorem test_wellFormed_refuses_sys_0EE : wellFormed (.sys 0x0EE) = false := by decide
theorem test_wellFormed_accepts_other_sys :
    wellFormed (.sys 0x001) = true ∧ wellFormed (.sys 0x0E1) = true ∧ wellFormed (.sys 0xFFF) = true := by decide

/-- E1 to E6, Z3. -/
theorem test_decode_family_0 :
    decodeWord 0x0000 = some .halt ∧ decodeWord 0x00E0 = some .cls ∧ decodeWord 0x00EE = some .ret ∧
    decodeWord 0x00E1 = some (.sys 0x0E1) ∧ decodeWord 0x00ED = some (.sys 0x0ED) ∧
    decodeWord 0x00EF = some (.sys 0x0EF) ∧ decodeWord 0x0123 = some (.sys 0x123) := by decide

/-- E7, T4, T11, T13, T15, T18. -/
theorem test_decode_control_transfer :
    decodeWord 0x1ABC = some (.jp 0xABC) ∧ decodeWord 0x2006 = some (.call 0x006) ∧
    decodeWord 0x332A = some (.sei .V3 0x2A) ∧ decodeWord 0x432A = some (.snei .V3 0x2A) ∧
    decodeWord 0x5120 = some (.ser .V1 .V2) ∧ decodeWord 0x9120 = some (.sner .V1 .V2) := by decide

/-- M1, M4, M10. -/
theorem test_decode_immediates_and_index :
    decodeWord 0x65C3 = some (.ldi .V5 0xC3) ∧ decodeWord 0x7305 = some (.addi .V3 0x05) ∧
    decodeWord 0xA123 = some (.ldix 0x123) := by decide

/-- The words of section 2.5 and E9, E10. -/
theorem test_decode_alu :
    decodeWord 0x8120 = some (.mov .V1 .V2) ∧ decodeWord 0x8121 = some (.or .V1 .V2) ∧
    decodeWord 0x8122 = some (.and .V1 .V2) ∧ decodeWord 0x8123 = some (.xor .V1 .V2) ∧
    decodeWord 0x8F14 = some (.add .VF .V1) ∧ decodeWord 0x80F5 = some (.sub .V0 .VF) ∧
    decodeWord 0x8AB6 = some (.shr .VA .VB) ∧ decodeWord 0x8227 = some (.subn .V2 .V2) ∧
    decodeWord 0x8ABE = some (.shl .VA .VB) := by decide

/-- G3 to G8, E15, E16. -/
theorem test_decode_delegated :
    decodeWord 0xB200 = some (.jpo 0x200) ∧ decodeWord 0xC30F = some (.rnd .V3 0x0F) ∧
    decodeWord 0xD123 = some (.drw .V1 .V2 3) ∧ decodeWord 0xE19E = some (.key .V1 0x9E) ∧
    decodeWord 0xE000 = some (.key .V0 0x00) ∧ decodeWord 0xF255 = some (.ext .V2 0x55) ∧
    decodeWord 0xFFFF = some (.ext .VF 0xFF) := by decide

/-- E11 to E13 and the other words of R79's family-8 row. -/
theorem test_decode_rejects :
    [0x8AB8, 0x8AB9, 0x8ABA, 0x8ABB, 0x8ABC, 0x8ABD, 0x8ABF, 0x5AB1, 0x5ABF, 0x9AB1, 0x9ABF].map decodeWord =
      List.replicate 11 none := by decide

/-- R53, R82: bytes, high byte first; a rejection names the word. -/
theorem test_decode_bytes :
    decodeBytes [0x80, 0x14, 0x77] = .instr (.add .V0 .V1) [0x77] ∧
    decodeBytes [0x80, 0x18] = .unimplementedOpcode 0x8018 ∧ decodeBytes [0x80] = .truncated := by decide

/-- R83, S1. -/
theorem test_encode_words :
    encodeBytes (.add .V0 .V1) = [0x80, 0x14] ∧ encode (.sys 0x123) = 0x0123 ∧ encode (.drw .V0 .V1 5) = 0xD015 ∧
    encode (.shl .V0 .V7) = 0x807E := by decide

/-- S5: the fields of 0x3A7C. -/
theorem test_fields :
    fieldC 0x3A7C = 3 ∧ fieldX 0x3A7C = 0xA ∧ fieldY 0x3A7C = 7 ∧ fieldD 0x3A7C = 0xC ∧ fieldKK 0x3A7C = 0x7C ∧
    fieldNNN 0x3A7C = 0xA7C := by decide

/-- S14, S15 and the examples of R28. -/
theorem test_address_unit :
    addrAdd 0xFFE 2 = 0x000 ∧ addrAdd 0xFFF 2 = 0x001 ∧ addrSub 0x001 2 = 0xFFF ∧ addrSub 0x000 1 = 0xFFF ∧
    addrSub 0x000 2 = 0xFFE ∧ addrPack 0xA 0x7 0xC = 0xA7C ∧ addrIndex (addrPack 0xA 0x7 0xC) = 2684 := by decide

/-- The host's question on a row of the opcode table (R76). -/
theorem test_decodeTableWord :
    decodeTableWord 16 0x7305 = some (.addi .V3 0x05) ∧ decodeTableWord 16 0x5001 = none := by decide

/-! ## Family 0 and control transfer -/

/-- Z1, Z5. -/
theorem test_halt : StepGives State.reset (fun s => { s with run := .halted, pc := 0x002 }) := by decide
/-- Z7. -/
theorem test_halt_wraps : StepGives (placed 0xFFE 0x0000) (fun s => { s with run := .halted, pc := 0x000 }) := by decide
/-- Z6. -/
theorem test_halted_stays : StepGives { State.reset with run := .halted, pc := 0x002 } id := by decide
/-- Z2. -/
theorem test_cls : StepGives (placed 0x000 0x00E0) (fun s => { s with pc := 0x002 }) := by decide
/-- Z3. -/
theorem test_sys : StepGives (placed 0x000 0x0123) (fun s => { s with pc := 0x002 }) := by decide
/-- T7. -/
theorem test_ret :
    StepGives (((placed 0x00A 0x00EE).presetSp 1).presetSlot 0 0x002) (fun s => { s with pc := 0x002, sp := 0 }) := by
  decide
/-- T8, X6. -/
theorem test_ret_underflow :
    StepGives (placed 0x000 0x00EE) (fun s => { s with run := .faulted, fault := .stackUnderflow }) := by decide
/-- T1. -/
theorem test_jp : StepGives (placed 0x002 0x1FFE) (fun s => { s with pc := 0xFFE }) := by decide
/-- T3. -/
theorem test_jp_odd : StepGives (placed 0x000 0x1123) (fun s => { s with pc := 0x123 }) := by decide
/-- T5. -/
theorem test_call_wraps :
    StepGives { placed 0xFFE 0x2ABC with stack := Vector.replicate 16 0x777 }
      (fun s => { s with stack := s.stack.set 0 0x000, sp := 1, pc := 0xABC }) := by decide
/-- T10, X7. -/
theorem test_call_overflow :
    StepGives { placed 0x020 0x2300 with sp := 16 } (fun s => { s with run := .faulted, fault := .stackOverflow }) := by
  decide
/-- T12. -/
theorem test_sei_not_taken :
    StepGives ((placed 0x010 0x332A).setReg .V3 0x2B) (fun s => { s with pc := 0x012 }) := by decide
/-- T21. -/
theorem test_sei_taken_wraps : StepGives (placed 0xFFE 0x3000) (fun s => { s with pc := 0x002 }) := by decide
/-- T13. -/
theorem test_snei_not_taken :
    StepGives ((placed 0x010 0x432A).setReg .V3 0x2A) (fun s => { s with pc := 0x012 }) := by decide
/-- T14. -/
theorem test_snei_taken :
    StepGives ((placed 0x010 0x432A).setReg .V3 0x2B) (fun s => { s with pc := 0x014 }) := by decide
/-- T16. -/
theorem test_ser_not_taken :
    StepGives (((placed 0x020 0x5120).setReg .V1 7).setReg .V2 8) (fun s => { s with pc := 0x022 }) := by decide
/-- T25: the skipped word 0x5001 is never fetched. -/
theorem test_ser_skips_illegal :
    StepGives { placed 0x000 0x5000 with mem := Memory.writeBytes [] 0 [0x50, 0x00, 0x50, 0x01] }
      (fun s => { s with pc := 0x004 }) := by decide
/-- T18. -/
theorem test_sner_taken :
    StepGives (((placed 0x020 0x9120).setReg .V1 7).setReg .V2 8) (fun s => { s with pc := 0x024 }) := by decide
/-- T20. -/
theorem test_sner_same_register :
    StepGives ((placed 0x020 0x9440).setReg .V4 0x99) (fun s => { s with pc := 0x022 }) := by decide

/-! ## Immediates, the index register, the ALU -/

/-- M3. -/
theorem test_ldi_flag_register :
    StepGives (placed 0x000 0x6F80) (fun s => { s.setReg .VF 0x80 with pc := 0x002 }) := by decide
/-- X2: the last fetchable address. -/
theorem test_ldi_at_top :
    StepGives (placed 0xFFE 0x6007) (fun s => { s.setReg .V0 7 with pc := 0x000 }) := by decide
/-- M4. -/
theorem test_addi_wraps :
    StepGives (((placed 0x000 0x7305).setReg .V3 0xFE).setReg .VF 0x55)
      (fun s => { s.setReg .V3 0x03 with pc := 0x002 }) := by decide
/-- M9. -/
theorem test_addi_flag_register :
    StepGives ((placed 0x000 0x7F02).setReg .VF 0xFF) (fun s => { s.setReg .VF 0x01 with pc := 0x002 }) := by decide
/-- M11. -/
theorem test_ldix_clears_the_upper_bits :
    StepGives ((placed 0x000 0xAFFF).setIndex 0xFFFF) (fun s => { s with i := 0x0FFF, pc := 0x002 }) := by decide
/-- L3. -/
theorem test_mov :
    StepGives ((((placed 0x000 0x8010).setReg .V0 0xF0).setReg .V1 0x3C).setReg .VF 0x77)
      (fun s => { s.setReg .V0 0x3C with pc := 0x002 }) := by decide
/-- L3. -/
theorem test_or :
    StepGives ((((placed 0x000 0x8011).setReg .V0 0xF0).setReg .V1 0x3C).setReg .VF 0x77)
      (fun s => { s.setReg .V0 0xFC with pc := 0x002 }) := by decide
/-- L3. -/
theorem test_and :
    StepGives ((((placed 0x000 0x8012).setReg .V0 0xF0).setReg .V1 0x3C).setReg .VF 0x77)
      (fun s => { s.setReg .V0 0x30 with pc := 0x002 }) := by decide
/-- L3. -/
theorem test_xor :
    StepGives ((((placed 0x000 0x8013).setReg .V0 0xF0).setReg .V1 0x3C).setReg .VF 0x77)
      (fun s => { s.setReg .V0 0xCC with pc := 0x002 }) := by decide
/-- Q4. -/
theorem test_xor_same_register :
    StepGives (((placed 0x000 0x8223).setReg .V2 0x5A).setReg .VF 0x77)
      (fun s => { s.setReg .V2 0x00 with pc := 0x002 }) := by decide
/-- Section 2.5, the flag register as source: 0xFF + 0x01. -/
theorem test_add_old_flag_as_operand :
    StepGives (((placed 0x000 0x80F4).setReg .V0 0xFF).setReg .VF 0x01)
      (fun s => { s.setReg .V0 0x00 with pc := 0x002 }) := by decide
/-- F2. -/
theorem test_add_into_flag_register :
    StepGives (((placed 0x000 0x8F14).setReg .VF 0x81).setReg .V1 0x02)
      (fun s => { s.setReg .VF 0x00 with pc := 0x002 }) := by decide
/-- A2. -/
theorem test_sub_borrows :
    StepGives (((placed 0x000 0x8015).setReg .V0 0x05).setReg .V1 0x0A)
      (fun s => { (s.setReg .V0 0xFB).setReg .VF 1 with pc := 0x002 }) := by decide
/-- A7. -/
theorem test_sub_equal :
    StepGives ((((placed 0x000 0x8015).setReg .V0 0x80).setReg .V1 0x80).setReg .VF 0x77)
      (fun s => { (s.setReg .V0 0x00).setReg .VF 0 with pc := 0x002 }) := by decide
/-- A4. -/
theorem test_subn_borrows :
    StepGives (((placed 0x000 0x8017).setReg .V0 0xFF).setReg .V1 0x01)
      (fun s => { (s.setReg .V0 0x02).setReg .VF 1 with pc := 0x002 }) := by decide
/-- F2. -/
theorem test_subn_into_flag_register :
    StepGives (((placed 0x000 0x8F17).setReg .VF 0x81).setReg .V1 0x02)
      (fun s => { s.setReg .VF 0x01 with pc := 0x002 }) := by decide
/-- H7 with the ignored `y` field: 0x8076. -/
theorem test_shr_ignores_y :
    StepGives (((placed 0x000 0x8076).setReg .V0 0x81).setReg .V7 0x33)
      (fun s => { (s.setReg .V0 0x40).setReg .VF 1 with pc := 0x002 }) := by decide
/-- H2: the bit shifted out is not the flag. -/
theorem test_shr_of_one :
    StepGives (((placed 0x000 0x8006).setReg .V0 0x01).setReg .VF 0x77)
      (fun s => { (s.setReg .V0 0x00).setReg .VF 0 with pc := 0x002 }) := by decide
/-- H6: the bit shifted out is not the flag. -/
theorem test_shl_of_128 :
    StepGives (((placed 0x000 0x800E).setReg .V0 0x80).setReg .VF 0x77)
      (fun s => { (s.setReg .V0 0x00).setReg .VF 0 with pc := 0x002 }) := by decide
/-- F3. -/
theorem test_shl_flag_register :
    StepGives ((placed 0x000 0x8F0E).setReg .VF 0x01) (fun s => { s.setReg .VF 0x01 with pc := 0x002 }) := by decide

/-! ## The delegated instructions -/

/-- G3. -/
theorem test_jpo_null : StepGives (placed 0x000 0xB200) (fun s => { s with pc := 0x002 }) := by decide
/-- G11. -/
theorem test_jpo_answered :
    StepGives (mocked (.done [.pc 0x205]) (placed 0x010 0xB200))
      (fun s => { s with pc := 0x205, collab := .attached [] 0 }) := by decide
/-- G4. -/
theorem test_rnd_null : StepGives (placed 0x000 0xC30F) (fun s => { s with pc := 0x002 }) := by decide
/-- G9. -/
theorem test_rnd_answered :
    StepGives (mocked (.done [.reg 3 0x0A]) (placed 0x010 0xC30F))
      (fun s => { s.setReg .V3 0x0A with pc := 0x012, collab := .attached [] 0 }) := by decide
/-- G5. -/
theorem test_drw_null : StepGives (placed 0x000 0xD015) (fun s => { s with pc := 0x002 }) := by decide
/-- R144, R149: a read of the display collaborator is out of bounds. -/
theorem test_drw_reads_out_of_bounds :
    StepGives (mocked .outOfBounds (placed 0x010 0xD015))
      (fun s => { s with run := .faulted, fault := .outOfBounds }) := by decide
/-- G10: the collaborator sees the provisional `pc`, here 0x012. -/
theorem test_key_answered :
    StepGives (mocked (.done [.pc (addrAdd (placed 0x010 0xE19E).collabView.pc 2)]) (placed 0x010 0xE19E))
      (fun s => { s with pc := 0x014, collab := .attached [] 0 }) := by decide
/-- G8. -/
theorem test_ext_null : StepGives (placed 0x000 0xFFFF) (fun s => { s with pc := 0x002 }) := by decide
/-- G12: nothing is committed. -/
theorem test_ext_store_out_of_bounds :
    StepGives (mocked (.done [.mem 0xFFE 1, .mem 0xFFF 2, .mem 0x1000 3]) ((placed 0x010 0xF255).setIndex 0x0FFE))
      (fun s => { s with run := .faulted, fault := .outOfBounds }) := by decide
/-- G14: the store lands on the next instruction. -/
theorem test_store_on_next_instruction :
    ((after (mocked (.done [.mem 0x012 0x60, .mem 0x013 0x09])
      { placed 0x010 0xF155 with mem := Memory.writeBytes [] 0x010 [0xF1, 0x55, 0x12, 0x34] })).bind after).map
        (fun t => (t.reg .V0, t.pc)) = some (9, 0x014) := by decide

/-! ## Faults of the engine -/

/-- X1. -/
theorem test_fetch_at_FFF :
    StepGives { State.reset with pc := 0xFFF, mem := [(0xFFF, 0x12)] }
      (fun s => { s with run := .faulted, fault := .outOfBounds }) := by decide
/-- X3. -/
theorem test_unimplemented :
    StepGives ((placed 0x002 0x8018).setReg .V0 7)
      (fun s => { s with run := .faulted, fault := .unimplementedOpcode 0x8018 }) := by decide
/-- X8. -/
theorem test_faulted_stays :
    StepGives { placed 0x000 0x6001 with run := .faulted, fault := .stackOverflow } id := by decide
/-- D21: the records after X1 and X3 as numbers. -/
theorem test_codes :
    (RunState.faulted.code, FaultRecord.outOfBounds.code) = (2, 3) ∧
    (FaultRecord.unimplementedOpcode 0x8018).code = 4 ∧ FaultRecord.stackUnderflow.code = 2 ∧
    FaultRecord.stackOverflow.code = 1 := by decide

/-! ## Loader, memory, assembler -/

/-- D1. -/
theorem test_load_instructions :
    State.reset.loadInstructions 0x200 [0x8014, 0x0000] =
      .loaded { State.reset with mem := [(0x200, 0x80), (0x201, 0x14)] } 0x204 := by decide
/-- D2. -/
theorem test_load_at_top :
    State.reset.loadBytes 0xFFE [0xAA, 0xBB] =
      .loaded { State.reset with mem := [(0xFFE, 0xAA), (0xFFF, 0xBB)] } 0x1000 := by decide
/-- D3, D4. -/
theorem test_load_refused :
    State.reset.loadBytes 0xFFF [0xAA, 0xBB] = .outOfBounds ∧
    State.reset.loadInstructions 0xFFF [0x1234] = .outOfBounds := by decide
/-- D5. -/
theorem test_later_load_wins :
    (State.reset.hostActs [.loadInstructions 0 [0x6001], .loadBytes 1 [0x02]]).map State.mem =
      some [(0, 0x60), (1, 0x02)] := by decide
/-- D6 to D8. -/
theorem test_memread :
    Memory.read2 [(0xFFE, 0x12), (0xFFF, 0x34)] 0xFFE = some 0x1234 ∧ Memory.read2 [] 0xFFF = none ∧
    Memory.read1 [] 4096 = none := by decide
/-- Writing zero removes the entry: the canonical form. -/
theorem test_write_keeps_canonical_form :
    Memory.write [(1, 5), (7, 9)] 1 0 = [(7, 9)] ∧ Memory.write [(1, 5), (7, 9)] 4 2 = [(1, 5), (4, 2), (7, 9)] := by
  decide
/-- R83, R85: operands out of range, and `SYS` with a taken operand, are refused. -/
theorem test_assemble_refuses :
    assemble "LDI" [0, 256] = none ∧ assemble "LDI" [16, 0] = none ∧ assemble "JP" [4096] = none ∧
    assemble "SYS" [0x0EE] = none ∧ assemble "NOP" [] = none ∧ assemble "SHR" [10] = some (.shr .VA .V0) := by decide
/-- P12's text, its comment and its label. -/
theorem test_assemble_text :
    assembleText 0 "SER V0, V0 ; skips\nDW 0x5001\nend: JP end" = some [0x5000, 0x5001, 0x1004] := by decide
/-- R85: a register's digit, and the digits of a number. -/
theorem test_assemble_text_digits :
    assembleText 0 "LDI VF, 0xaB" = some [0x6FAB] ∧ assembleText 0 "ADDI V9, 19" = some [0x7913] ∧
    assembleText 0 "LDI VG, 1" = none ∧ assembleText 0 "LDI Va, 1" = none := by decide
/-- R83, R85: a line with an operand out of range, or a number where a register stands, is refused. -/
theorem test_assemble_text_refuses :
    assembleText 0 "LDI VA, 256" = none ∧ assembleText 0 "LDI 10, 5" = none ∧ assembleText 0 "JP nowhere" = none := by
  decide

/-! ## Witnesses: the hypotheses of the statements can be met -/

/-- Every state is within the bounds of R43 once its fault record agrees: the types carry the rest. -/
theorem withinBounds_of_agrees {s : State} (h : s.FaultRecordAgrees) : s.WithinBounds :=
  ⟨fun r => by have := (s.reg r).isLt; omega, by have := s.pc.isLt; omega, by have := s.i.isLt; omega,
    fun k => by have := s.stack[k].isLt; omega, by have := s.sp.isLt; omega,
    fun a => by have := (Memory.read s.mem a).isLt; omega, h⟩

theorem agrees_of_running {s : State} (hr : s.run = .running) (hf : s.fault = .none) : s.FaultRecordAgrees := by
  simp [State.FaultRecordAgrees, hr, hf]

theorem witness_StepKeepsInvariant :
    (placed 0xFFE 0x6F80).Inv ∧ ∃ t, step (placed 0xFFE 0x6F80) = .next t :=
  ⟨⟨agrees_of_running rfl rfl, by decide⟩, _, rfl⟩
theorem witness_RunsKeepInvariant : (placed 0x000 0x5001).Inv := ⟨agrees_of_running rfl rfl, by decide⟩
theorem witness_StepKeepsBounds :
    ∃ s t : State, s.WithinBounds ∧ step s = .next t ∧ s.run = .running ∧ t.run = .faulted :=
  ⟨placed 0x000 0x5001, _, withinBounds_of_agrees (agrees_of_running rfl rfl), rfl, rfl, rfl⟩
theorem witness_TerminalStatesNeverChange :
    ({ placed 0 0x6001 with run := .halted } : State).Terminal ∧
    ({ placed 0 0x6001 with run := .faulted, fault := .stackOverflow } : State).Terminal :=
  ⟨by simp [State.Terminal], by simp [State.Terminal]⟩
theorem witness_RunStateTransitions :
    (State.reset.run = .running ∧ State.reset.fetch = some 0x0000) ∧
    ((placed 0 0x0001).run = .running ∧ (placed 0 0x0001).fetch ≠ some 0x0000) := by decide

/-- One state for each cause of a fault. -/
theorem witness_FaultsArePreciseAndCaused :
    (∀ s ∈ [{ State.reset with pc := 0xFFF }, mocked .outOfBounds (placed 0 0xD015),
        mocked (.done [.reg 16 1]) (placed 0 0xC000), mocked (.done [.mem 4096 1]) (placed 0 0xF055),
        placed 0 0x9ABF, { placed 0 0x2300 with sp := 16 }, placed 0 0x00EE],
      s.run = .running ∧ (after s).map State.run = some .faulted) := by decide
theorem witness_StepRunsDecodedInstruction :
    (placed 0xFFE 0x00E1).run = .running ∧ (placed 0xFFE 0x00E1).pc ≠ 0xFFF ∧
    decodeWord (wordOfBytes (Memory.read (placed 0xFFE 0x00E1).mem (placed 0xFFE 0x00E1).pc.toNat)
      (Memory.read (placed 0xFFE 0x00E1).mem ((placed 0xFFE 0x00E1).pc.toNat + 1))) = some (.sys 0x0E1) := by decide
theorem witness_FetchAtTopOfMemory :
    (({ State.reset with pc := 0xFFF } : State).run = .running ∧ ({ State.reset with pc := 0xFFF } : State).pc = 0xFFF) ∧
    (placed 0xFFE 0x1234).pc = 0xFFE ∧ (placed 0xFFE 0x1234).fetch = some 0x1234 := by decide
theorem witness_UnmatchedWordFaults :
    (placed 0 0x5001).run = .running ∧ (placed 0 0x5001).fetch = some 0x5001 ∧ decodeWord 0x5001 = none := by decide
/-- One word for each of the other two clauses, at the ends of their ranges. -/
theorem witness_UnmatchedWordFaults_clauses :
    decodeWord 0x9ABF = none ∧ decodeWord 0x8AB8 = none ∧ decodeWord 0x8ABF = none := by decide
theorem witness_ExactRowsComeBeforeSys :
    ((dispatchTable[0]'(by decide)).selects 0x0000 = true ∧ (dispatchTable[3]'(by decide)).selects 0x0000 = true) ∧
    ((dispatchTable[1]'(by decide)).selects 0x00E0 = true ∧ (dispatchTable[3]'(by decide)).selects 0x00E0 = true) ∧
    ((dispatchTable[2]'(by decide)).selects 0x00EE = true ∧ (dispatchTable[3]'(by decide)).selects 0x00EE = true) := by
  decide
theorem witness_DecodeOfEncodeIsTheInstruction :
    wellFormed (.sys 0xFFF) = true ∧ wellFormed (.shl .VF .VF) = true ∧ wellFormed (.drw .VF .VF 15) = true := by decide
theorem witness_EncodeOfDecodeIsTheWord :
    decodeWord 0x8FFE = some (.shl .VF .VF) ∧ decodeWord 0x0FFF = some (.sys 0xFFF) := by decide
theorem witness_AssemblerNeverTruncates :
    assemble "SHR" [15] = some (.shr .VF .V0) ∧ assemble "SHL" [15, 15] = some (.shl .VF .VF) ∧
    assemble "DRW" [15, 15, 15] = some (.drw .VF .VF 15) ∧ assemble "JP" [4095] = some (.jp 0xFFF) := by decide
theorem witness_HaltStopsTheEngine :
    (placed 0xFFE 0x0000).run = .running ∧ (placed 0xFFE 0x0000).pc ≠ 0xFFF ∧
    Memory.read (placed 0xFFE 0x0000).mem (placed 0xFFE 0x0000).pc.toNat = 0 ∧
    Memory.read (placed 0xFFE 0x0000).mem ((placed 0xFFE 0x0000).pc.toNat + 1) = 0 ∧
    ({ State.reset with run := .halted } : State).run = .halted := by decide
/-- Both branches at their edges: the sixteenth call is pushed, the seventeenth faults. -/
theorem witness_CallPushesTheReturnAddress :
    (({ State.reset with sp := 0 } : State).sp.val < 16 ∧ ({ State.reset with sp := 15 } : State).sp.val < 16) ∧
    ({ State.reset with sp := 16 } : State).sp.val = 16 := by decide
theorem witness_RetPopsTheTopEntry :
    (0 < ({ State.reset with sp := 1 } : State).sp.val ∧ 0 < ({ State.reset with sp := 16 } : State).sp.val) ∧
    State.reset.sp.val = 0 := by decide
theorem witness_CallThenReturnComesBack :
    ∃ (s : State) (nnn : Addr), s.run = .running ∧ s.sp.val < 16 ∧ s.fetch = some (encode (.call nnn)) ∧ nnn ≠ 0xFFF ∧
      wordOfBytes (Memory.read s.mem nnn.toNat) (Memory.read s.mem (nnn.toNat + 1)) = 0x00EE :=
  ⟨{ placed 0 0x2FFE with mem := [(0, 0x2F), (1, 0xFE), (0xFFF, 0xEE)], sp := 15 }, 0xFFE, by decide⟩
/-- Both outcomes of each comparison. -/
theorem witness_ImmediateSkips :
    State.reset.reg .VF = (0x00 : Byte) ∧ State.reset.reg .VF ≠ (0xFF : Byte) := by decide
theorem witness_RegisterSkips :
    (State.reset.setReg .VF 1).reg .VF ≠ (State.reset.setReg .VF 1).reg .V0 ∧
    State.reset.reg .VF = State.reset.reg .V0 := by decide
/-- The destination that is the flag register, and one that is not. -/
theorem witness_AddWritesSumAndCarry : (.V0 : Reg) ≠ .VF ∧ (255 : Byte).toNat + (1 : Byte).toNat > 255 ∧
    ¬ (255 : Byte).toNat + (0 : Byte).toNat > 255 := by decide
theorem witness_CoreInstructionsKeepTheRest :
    (Instr.add .V0 .V1).isCore = true ∧ ∃ t, exec (.add .V0 .V1) State.reset = .next t := ⟨rfl, _, rfl⟩
theorem witness_OnlyCallAndRetSeeTheStack :
    (∀ nnn, Instr.ext .V0 0x55 ≠ .call nnn) ∧ Instr.ext .V0 0x55 ≠ .ret ∧
    ∃ t, exec (.ext .V0 0x55) (mocked (.done [.mem 4095 1]) State.reset) = .next t :=
  ⟨fun _ h => (nomatch h), by decide, _, rfl⟩
theorem witness_NoCoreInstructionReadsTheIndex :
    (Instr.ldix 0xFFF).isCore = true ∧ ∃ t, exec (.ldix 0xFFF) State.reset = .next t := ⟨rfl, _, rfl⟩
theorem witness_NullCollaboratorOnlyAdvances : State.reset.collab = .detached := rfl
theorem witness_CollaboratorWritesAreCommitted :
    ∃ (s : State) (ws : List CollabWrite), s.collabAnswer (.ext .V2 0x55) = .done ws ∧
      (∀ k b, .reg k b ∈ ws → k < 16) ∧ (∀ j b, .mem j b ∈ ws → j < 4096) ∧
      (.reg 15 7 ∈ ws ∧ ∀ b, .reg 15 b ∈ ws → b = 7) ∧ (.mem 4095 9 ∈ ws ∧ ∀ b, .mem 4095 b ∈ ws → b = 9) ∧
      (.index 0x1000 ∈ ws ∧ ∀ w, .index w ∈ ws → w = 0x1000) ∧ (.pc 0xFFF ∈ ws ∧ ∀ p, .pc p ∈ ws → p = 0xFFF) ∧
      (∀ b, .reg 0 b ∉ ws) ∧ ∀ b, .mem 0 b ∉ ws := by
  refine ⟨mocked (.done [.reg 15 7, .mem 4095 9, .index 0x1000, .pc 0xFFF]) State.reset, _, rfl, ?_⟩
  simp
/-- A collaborator that asks for no register, index or program-counter write at all. -/
theorem witness_CollaboratorWritesAreCommitted_absent :
    (∀ w, CollabWrite.index w ∉ [CollabWrite.mem 0x300 0xAB]) ∧
    ∀ p, CollabWrite.pc p ∉ [CollabWrite.mem 0x300 0xAB] := by simp
theorem witness_CollaboratorOutOfBoundsCommitsNothing :
    (mocked .outOfBounds State.reset).collabAnswer .cls = .outOfBounds ∧
    ((mocked (.done [.reg 16 0]) State.reset).collabAnswer (.rnd .V0 0) = .done [.reg 16 0] ∧ 16 ≤ 16) ∧
    (mocked (.done [.mem 4096 0]) State.reset).collabAnswer (.ext .V0 0x55) = .done [.mem 4096 0] ∧ 4096 ≤ 4096 := by
  decide
theorem witness_StoredInstructionIsFetchedNext :
    ∃ (s : State), s.run = .running ∧ s.pc.toNat + 3 < 4096 ∧ s.fetch = some (encode (requestInstr (.ext .V1 0x55))) ∧
      wellFormed (requestInstr (.ext .V1 0x55)) = true ∧
      s.collabAnswer (.ext .V1 0x55) = .done [.mem (s.pc.toNat + 2) 0x60, .mem (s.pc.toNat + 3) 0x09] :=
  ⟨mocked (.done [.mem 0x012 0x60, .mem 0x013 0x09]) (placed 0x010 0xF155), by decide⟩
/-- The edges of the four primitives. -/
theorem witness_MemoryPrimitivesAreBoundedAndBigEndian :
    Memory.read1 [(4095, 7)] 4095 = some 7 ∧ Memory.read1 [] 4096 = none ∧ Memory.read2 [(4094, 1)] 4094 = some 0x0100 ∧
    Memory.read2 [] 4095 = none ∧ Memory.write1 [] 4095 7 = some [(4095, 7)] ∧ Memory.write1 [] 4096 7 = none ∧
    Memory.write2 [] 4094 0x0102 = some [(4094, 1), (4095, 2)] ∧ Memory.write2 [] 4095 0x0102 = none := by decide
theorem witness_CanonicalMemoriesAreTheirBytes :
    Memory.wf [(0, 1), (4095, 2)] ∧ ¬ Memory.wf [(0, 0)] ∧ ¬ Memory.wf [(1, 1), (0, 1)] ∧ ¬ Memory.wf [(4096, 1)] := by
  decide
/-- The last load that fits, and the first that does not. -/
theorem witness_LoadInstructionsIsWholeOrRefused :
    (4092 + 2 * ([0x1234, 0x5678] : List Word).length ≤ 4096) ∧ 0 < ([0x1234] : List Word).length ∧
    4096 < 4095 + 2 * ([0x1234] : List Word).length := by decide
theorem witness_LaunchedProgramIsFetched :
    (0xFFE : Addr).toNat + 2 * (([] : List Word).length + 1) ≤ 4096 := by decide
theorem witness_EveryLaunchStateMeetsInvariant :
    (launchState [.loadInstructions 0x200 [0x8014], .loadBytes 0 [0x12], .presetReg .V0 5, .presetIndex 0xFFFF,
      .presetSp 16, .presetSlot 15 0x777, .attach (.attached [] 0)] 0x200).isSome = true := by decide
theorem witness_PlacedWordIsRunNext : decodeTableWord 16 0x7305 = some (.addi .V3 0x05) := by decide
/-- `withFetchWord` at the top of memory, from a faulted state. -/
theorem witness_PlacedWordIsRunNext_top :
    (after (({ State.reset with pc := 0xFFF, run := .faulted, fault := .outOfBounds } : State).withFetchWord 16
      0x6A07)).map (fun t => (t.reg .VA, t.pc)) = some (7, 2) := by decide
theorem witness_UnwrittenMemoryEndsTheRun :
    State.reset.run = .running ∧ State.reset.pc ≠ 0xFFF ∧ Memory.read State.reset.mem State.reset.pc.toNat = 0 ∧
    Memory.read State.reset.mem (State.reset.pc.toNat + 1) = 0 := by decide
theorem witness_JumpToItselfNeverEnds :
    (placed 0xFFE 0x1FFE).run = .running ∧ (placed 0xFFE 0x1FFE).fetch = some (encode (.jp (placed 0xFFE 0x1FFE).pc)) := by
  decide
/-- A destination that is not the flag register, with operands on both sides of each comparison. -/
theorem witness_FlagPropertiesOfTheAlu :
    (.V0 : Reg) ≠ .VF ∧ (128 : Byte).toNat + (128 : Byte).toNat > 255 ∧ (127 : Byte).toNat < (128 : Byte).toNat ∧
    (128 : Byte).getLsbD 7 = true ∧ (128 : Byte).getLsbD 0 = false := by decide
theorem witness_StackFaultsHaveOneCauseEach :
    (({ State.reset with sp := 16 } : State).fault = .none ∧
      ∃ t, exec (.call 0xFFF) { State.reset with sp := 16 } = .next t ∧ t.fault = .stackOverflow) ∧
    State.reset.fault = .none ∧ ∃ t, exec .ret State.reset = .next t ∧ t.fault = .stackUnderflow :=
  ⟨⟨rfl, _, rfl, rfl⟩, rfl, _, rfl, rfl⟩

end Sys2Proof.Tests
end

section
/-! SUPPORT. The family 00_scope: how a run ends and how it goes on for ever. A state that steps to itself is the
state of every later moment of its run; the Halted state is one such, the jump to itself the other. -/

namespace Sys2Proof.Machine

/-! ### Runs -/

/-- A state that steps to itself is the state after any number of steps. -/
theorem run_of_step_self {s : State} (h : step s = .next s) (k : Nat) : Sys2Proof.core.run k s = .next s := by
  induction k with
  | zero => rfl
  | succ k ih => rw [run_succ h, ih]

/-- A terminal state is the state after any number of steps (R98). -/
theorem run_of_terminal {s : State} (h : s.run ≠ .running) (k : Nat) : Sys2Proof.core.run k s = .next s :=
  run_of_step_self (step_of_terminal h) k

/-- A step into Halted ends the run normally (R19). -/
theorem endsNormally_of_step_halted {s t : State} (h : step s = .next t) (ht : t.run = .halted) : EndsNormally s :=
  ⟨1, t, run_succ h 0, ht⟩

/-- A run that is not Faulted at its start and halts in one step is never Faulted (R98, R164). -/
theorem safeRun_of_step_halted {s t : State} (hs : s.run ≠ .faulted) (h : step s = .next t) (ht : t.run = .halted) :
    SafeRun s := by
  have terminal : t.run ≠ .running := by simp [ht]
  intro k u hu
  cases k with
  | zero =>
    obtain rfl : s = u := Host.Outcome.next.inj hu
    exact hs
  | succ k =>
    rw [run_succ h, run_of_terminal terminal] at hu
    obtain rfl : t = u := Host.Outcome.next.inj hu
    simp [ht]

/-! ### Halting -/

/-- Two zero bytes are the word of `HALT` (R6, R105). -/
theorem State.fetch_of_zero_bytes {s : State} (hpc : s.pc ≠ 0xFFF) (hhi : Memory.read s.mem s.pc.toNat = 0)
    (hlo : Memory.read s.mem (s.pc.toNat + 1) = 0) : s.fetch = some (encode .halt) := by
  rw [State.fetch_of_ne s hpc, hhi, hlo]
  rfl

theorem decodeWord_encode_halt : decodeWord (encode .halt) = some .halt := by decide

/-- The step of a Running machine on the halt word (R105, D7). -/
theorem step_of_fetch_halt {s : State} (hr : s.run = .running) (hf : s.fetch = some (encode .halt)) :
    step s = .next { s.advance with run := .halted } :=
  step_of_decode_some hr hf decodeWord_encode_halt

/-! ### Jumping to itself -/

@[simp] theorem State.setPc_pc_self (s : State) : s.setPc s.pc = s := rfl

/-- Family 1 is `JP`, whatever its address (R76). -/
theorem decodeWord_of_family_one {w : Word} (h : w.toNat / 4096 = 1) : decodeWord w = some (.jp (fieldNNN w)) := by
  simp only [decodeWord_eq, decodeByFamily, h]

theorem decodeWord_encode_jp (nnn : Addr) : decodeWord (encode (.jp nnn)) = some (.jp nnn) := by
  have family : (encodeNNN 0x1 nnn).toNat / 4096 = 1 := by
    have := nnn.isLt
    simp only [toNat_encodeNNN, BitVec.reduceToNat]
    omega
  simp only [encode, decodeWord_of_family_one family, fieldNNN_encodeNNN]

/-- The step of a Running machine on a jump (R111). -/
theorem step_of_fetch_jp {s : State} {nnn : Addr} (hr : s.run = .running) (hf : s.fetch = some (encode (.jp nnn))) :
    step s = .next (s.setPc nnn) :=
  step_of_decode_some hr hf (decodeWord_encode_jp nnn)

end Sys2Proof.Machine

namespace Sys2Proof

open Machine

/-- Settles O48: the two bytes are a `HALT`, so the first step halts, and Halted is terminal. -/
theorem unwrittenMemoryEndsTheRun : Obligations.UnwrittenMemoryEndsTheRun := by
  intro s hr hpc hhi hlo
  have halts := step_of_fetch_halt hr (State.fetch_of_zero_bytes hpc hhi hlo)
  exact ⟨endsNormally_of_step_halted halts rfl, safeRun_of_step_halted (by simp [hr]) halts rfl⟩

/-- Settles O49: the jump steps the state to itself, so every number of steps does. -/
theorem jumpToItselfNeverEnds : Obligations.JumpToItselfNeverEnds := by
  intro s hr hf k
  have stays : step s = .next s := step_of_fetch_jp hr hf
  exact run_of_step_self stays k

end Sys2Proof
end

section
/-! SUPPORT. The family 10_state: reset, the invariant and the bounds of R43, the address unit, canonical memories, and
which parts of the state an instruction reads and writes. -/

namespace Sys2Proof.Machine

/-! ### What an instruction and a step can do -/

/-- The three ways an instruction can end: it commits with `RUN` and `FAULT` as they were and memory in its canonical
form, it halts the engine, or it enters a fault with everything else as it was (R97). -/
inductive Ending (s : State) : State → Prop where
  | commits {t : State} (status : KeepsStatus s t) (mem : Memory.wf s.mem → Memory.wf t.mem) : Ending s t
  | halts : Ending s { s.advance with run := .halted }
  | faults {reason : FaultRecord} (isFault : reason ≠ .none) : Ending s (s.takeFault reason)

/-- A collaborator's writes do not reach `RUN` or `FAULT`, and they are in bounds (R143, R144). -/
theorem State.delegate_ending (s : State) (req : CollabRequest) : Ending s (s.delegate req) := by
  obtain ⟨ws, -, bounded, commit⟩ | ⟨-, fault⟩ := s.delegate_cases req
  · rw [commit]
    obtain ⟨-, -, run, fault, -⟩ := s.advance.consumePort.applyWrites_frame ws
    exact .commits ⟨run, fault⟩ fun wf => State.wf_applyWrites (s := s.advance.consumePort) wf bounded
  · rw [fault]
    exact .faults (by simp)

/-- Every instruction answers a next state, and that state is one of the three endings. -/
theorem exec_ending (i : Instr) (s : State) : ∃ t, exec i s = .next t ∧ Ending s t := by
  cases i with
  | halt => exact ⟨_, rfl, .halts⟩
  | call nnn =>
    by_cases full : s.sp.val = 16
    · exact ⟨_, execCall_of_full nnn s full, .faults (by simp)⟩
    · exact ⟨_, execCall_of_lt nnn s (by omega), .commits ⟨rfl, rfl⟩ id⟩
  | ret =>
    by_cases empty : s.sp.val = 0
    · exact ⟨_, execRet_of_empty s empty, .faults (by simp)⟩
    · exact ⟨_, execRet_of_pos s (by omega), .commits ⟨rfl, rfl⟩ id⟩
  | sei _ _ | snei _ _ | ser _ _ | sner _ _ => exact ⟨_, rfl, .commits (by simp [KeepsStatus]) (by simp)⟩
  | jp _ | ldi _ _ | addi _ _ | mov _ _ | or _ _ | and _ _ | xor _ _ | add _ _ | sub _ _ | shr _ _ | subn _ _
  | shl _ _ | ldix _ => exact ⟨_, rfl, .commits ⟨rfl, rfl⟩ id⟩
  | cls | sys _ | jpo _ | rnd _ _ | drw _ _ _ | key _ _ | ext _ _ => exact ⟨_, rfl, s.delegate_ending _⟩

/-- Every step answers a next state: a terminal state itself (R98), a Running state one of the three endings, the
engine's own two faults among them (R99). -/
theorem step_ending (s : State) :
    ∃ t, step s = .next t ∧ ((s.run ≠ .running ∧ t = s) ∨ (s.run = .running ∧ Ending s t)) := by
  obtain ⟨terminal, hs⟩ | ⟨running, -, hs⟩ | ⟨w, running, -, -, hs⟩ | ⟨w, i, running, -, -, hs⟩ := step_cases s
  · exact ⟨s, hs, .inl ⟨terminal, rfl⟩⟩
  · exact ⟨_, hs, .inr ⟨running, .faults (by simp)⟩⟩
  · exact ⟨_, hs, .inr ⟨running, .faults (by simp)⟩⟩
  · obtain ⟨t, ht, ending⟩ := exec_ending i s
    exact ⟨t, hs.trans ht, .inr ⟨running, ending⟩⟩

/-- The same, of a given next state. -/
theorem ending_of_step {s t : State} (h : step s = .next t) :
    (s.run ≠ .running ∧ t = s) ∨ (s.run = .running ∧ Ending s t) := by
  obtain ⟨u, hu, ending⟩ := step_ending s
  obtain rfl : u = t := Host.Outcome.next.inj (hu.symm.trans h)
  exact ending

/-! ### What every step keeps -/

/-- Of the endings of a Running state only a fault writes `FAULT`, and it makes `RUN` Faulted with it (R35, R43). -/
theorem Ending.keeps_agreement {s t : State} (ending : Ending s t) (running : s.run = .running)
    (agrees : s.FaultRecordAgrees) : t.FaultRecordAgrees := by
  cases ending with
  | commits status mem =>
    obtain ⟨run, fault⟩ := status
    simpa only [State.FaultRecordAgrees, run, fault] using agrees
  | halts =>
    have noFault : s.fault = .none := agrees.2 (by simp [running])
    simp [State.FaultRecordAgrees, noFault]
  | faults isFault => simp [State.FaultRecordAgrees, isFault]

theorem Ending.keeps_wf {s t : State} (ending : Ending s t) (wf : Memory.wf s.mem) : Memory.wf t.mem := by
  cases ending with
  | commits status mem => exact mem wf
  | halts => exact wf
  | faults isFault => exact wf

/-- A Running state can end Faulted only by fault entry (R161). -/
theorem Ending.faultEntered {s t : State} (ending : Ending s t) (running : s.run = .running)
    (faulted : t.run = .faulted) : FaultEntered t.fault s t := by
  cases ending with
  | commits status mem => simp [status.1, running] at faulted
  | halts => simp at faulted
  | faults isFault => rfl

theorem step_keeps_agreement {s t : State} (agrees : s.FaultRecordAgrees) (h : step s = .next t) :
    t.FaultRecordAgrees := by
  obtain ⟨-, rfl⟩ | ⟨running, ending⟩ := ending_of_step h
  · exact agrees
  · exact ending.keeps_agreement running agrees

theorem step_keeps_wf {s t : State} (wf : Memory.wf s.mem) (h : step s = .next t) : Memory.wf t.mem := by
  obtain ⟨-, rfl⟩ | ⟨-, ending⟩ := ending_of_step h
  · exact wf
  · exact ending.keeps_wf wf

theorem step_keeps_inv {s t : State} (inv : s.Inv) (h : step s = .next t) : t.Inv :=
  ⟨step_keeps_agreement inv.1 h, step_keeps_wf inv.2 h⟩

/-- A run answers after any number of steps, and what every step keeps holds of its answer. -/
theorem run_keeps {P : State → Prop} (hstep : ∀ s t, P s → step s = .next t → P t) {s : State} (hs : P s) (k : Nat) :
    ∃ t, Sys2Proof.core.run k s = .next t ∧ P t := by
  induction k generalizing s with
  | zero => exact ⟨s, rfl, hs⟩
  | succ k ih =>
    obtain ⟨t, ht, -⟩ := step_ending s
    rw [run_succ ht]
    exact ih (hstep s t hs ht)

/-! ### Reset and the bounds of R43 -/

theorem reset_inv : State.reset.Inv := ⟨by simp [State.FaultRecordAgrees, State.reset], Memory.wf_nil⟩

/-- The types carry every bound of R43, so the list says no more than that the fault record agrees. -/
theorem State.withinBounds_iff (s : State) : s.WithinBounds ↔ s.FaultRecordAgrees := by
  constructor
  · rintro ⟨-, -, -, -, -, -, agrees⟩
    exact agrees
  · intro agrees
    exact ⟨fun r => Nat.le_of_lt_succ (s.reg r).isLt, Nat.le_of_lt_succ s.pc.isLt, Nat.le_of_lt_succ s.i.isLt,
      fun k => Nat.le_of_lt_succ s.stack[k].isLt, Nat.le_of_lt_succ s.sp.isLt,
      fun a => Nat.le_of_lt_succ (Memory.read s.mem a).isLt, agrees⟩

/-! ### The address unit -/

theorem toNat_addrPack (n1 n2 n3 : Nibble) :
    (addrPack n1 n2 n3).toNat = n1.toNat * 256 + n2.toNat * 16 + n3.toNat := by
  simp only [addrPack, toNat_append_eq]; omega

theorem toNat_addrN1 (a : Addr) : (addrN1 a).toNat = a.toNat / 256 := by
  have := a.isLt
  simp [addrN1, Nat.shiftRight_eq_div_pow]; omega

theorem toNat_addrN2 (a : Addr) : (addrN2 a).toNat = a.toNat / 16 % 16 := by
  simp [addrN2, Nat.shiftRight_eq_div_pow]

theorem toNat_addrN3 (a : Addr) : (addrN3 a).toNat = a.toNat % 16 := by
  simp [addrN3]

@[simp] theorem addrN1_addrPack (n1 n2 n3 : Nibble) : addrN1 (addrPack n1 n2 n3) = n1 :=
  BitVec.eq_of_toNat_eq (by rw [toNat_addrN1, toNat_addrPack]; omega)

@[simp] theorem addrN2_addrPack (n1 n2 n3 : Nibble) : addrN2 (addrPack n1 n2 n3) = n2 :=
  BitVec.eq_of_toNat_eq (by rw [toNat_addrN2, toNat_addrPack]; omega)

@[simp] theorem addrN3_addrPack (n1 n2 n3 : Nibble) : addrN3 (addrPack n1 n2 n3) = n3 :=
  BitVec.eq_of_toNat_eq (by rw [toNat_addrN3, toNat_addrPack]; omega)

@[simp] theorem addrPack_nibbles (a : Addr) : addrPack (addrN1 a) (addrN2 a) (addrN3 a) = a :=
  BitVec.eq_of_toNat_eq (by rw [toNat_addrPack, toNat_addrN1, toNat_addrN2, toNat_addrN3]; omega)

/-- Subtraction has the non-negative modulus (R28, R186). -/
theorem toNat_addrSub (a : Addr) (k : Nat) : ((addrSub a k).toNat : Int) = ((a.toNat : Int) - k) % 4096 := by
  simp only [addrSub, BitVec.toNat_ofInt]; omega

theorem addrSub_addrAdd (a : Addr) (k : Nat) : addrSub (addrAdd a k) k = a := by
  have := a.isLt
  have difference := toNat_addrSub (addrAdd a k) k
  rw [toNat_addrAdd] at difference
  exact BitVec.eq_of_toNat_eq (by omega)

theorem addrEq_iff (a b : Addr) : addrEq a b = true ↔ a = b := by
  simp [addrEq, BitVec.toNat_inj]

theorem addrLt_iff (a b : Addr) : addrLt a b = true ↔ a.toNat < b.toNat := by
  simp [addrLt]

/-! ### Canonical memories -/

theorem Memory.mem_of_read_ne {m : Memory} {a : Nat} (h : Memory.read m a ≠ Memory.unlisted) :
    (a, Memory.read m a) ∈ m := by
  induction m with
  | nil => exact absurd rfl h
  | cons c rest ih =>
    by_cases here : c.1 = a
    · simp [Memory.read, ← here]
    · simp only [Memory.read, if_neg here] at h ⊢
      exact List.mem_cons_of_mem c (ih h)

theorem Memory.read_of_mem {m : Memory} (rising : m.Pairwise fun c d => c.1 < d.1) {c : Host.Cell} (hc : c ∈ m) :
    Memory.read m c.1 = c.2 := by
  induction m with
  | nil => simp at hc
  | cons d rest ih =>
    obtain ⟨first, rising⟩ := List.pairwise_cons.1 rising
    rcases List.mem_cons.1 hc with rfl | hc
    · simp [Memory.read]
    · have later : d.1 ≠ c.1 := Nat.ne_of_lt (first c hc)
      simpa [Memory.read, later] using ih rising hc

/-- The cells of a canonical memory are the bytes that do not read as an unlisted index. -/
theorem Memory.mem_iff_read {m : Memory} (wf : Memory.wf m) (c : Host.Cell) :
    c ∈ m ↔ Memory.read m c.1 = c.2 ∧ c.2 ≠ Memory.unlisted := by
  obtain ⟨rising, cells⟩ := wf
  constructor
  · intro hc
    exact ⟨Memory.read_of_mem rising hc, (cells c hc).2⟩
  · rintro ⟨reads, listed⟩
    have := Memory.mem_of_read_ne (m := m) (a := c.1) (by rwa [reads])
    rwa [reads] at this

/-- Canonical memories that read alike have the same cells, in the one order that rises. -/
theorem Memory.ext_of_wf {m n : Memory} (hm : Memory.wf m) (hn : Memory.wf n)
    (reads : ∀ a, Memory.read m a = Memory.read n a) : m = n := by
  have irreflexive : Std.Irrefl fun c d : Host.Cell => c.1 < d.1 := ⟨fun c => Nat.lt_irrefl c.1⟩
  have antisymmetric : Std.Antisymm fun c d : Host.Cell => c.1 < d.1 :=
    ⟨fun c d hcd hdc => absurd hcd (Nat.lt_asymm hdc)⟩
  refine hm.1.eq_of_mem_iff hn.1 fun c => ?_
  rw [Memory.mem_iff_read hm, Memory.mem_iff_read hn, reads]

/-! ### What a core instruction leaves unchanged -/

theorem keepsRegsExcept_setReg (s : State) (x : Reg) (b : Byte) : KeepsRegsExcept [x] s (s.advance.setReg x b) := by
  intro q hq
  exact State.reg_setReg_of_ne s.advance b (List.ne_of_not_mem_cons hq)

theorem keepsRegsExcept_setResultAndFlag (s : State) (x : Reg) (a f : Byte) :
    KeepsRegsExcept [x, .VF] s (s.advance.setResultAndFlag x a f) := by
  intro q hq
  obtain ⟨notResult, notFlag⟩ : q ≠ x ∧ q ≠ .VF := by simpa using hq
  simp [State.reg_setResultAndFlag, notResult, notFlag]

theorem keepsRegsExcept_of_v_eq {s t : State} (h : t.v = s.v) (rs : List Reg) : KeepsRegsExcept rs s t := by
  intro q _
  simp only [State.reg, h]

/-- A core instruction writes no register but its destinations, no byte of memory (R51) and not the port, and none but
`LDIX` writes the index register (R29). -/
theorem exec_core_frame {i : Instr} {s t : State} (core : i.isCore = true) (h : exec i s = .next t) :
    KeepsRegsExcept i.writes s t ∧ t.mem = s.mem ∧ t.collab = s.collab ∧ ((∀ nnn, i ≠ .ldix nnn) → t.i = s.i) := by
  cases i with
  | cls | sys _ | jpo _ | rnd _ _ | drw _ _ _ | key _ _ | ext _ _ => cases core
  | ldi x _ | addi x _ | mov x _ | or x _ | and x _ | xor x _ =>
    obtain rfl := Host.Outcome.next.inj h
    exact ⟨keepsRegsExcept_setReg s x _, rfl, rfl, fun _ => rfl⟩
  | add x _ | sub x _ | shr x _ | subn x _ | shl x _ =>
    obtain rfl := Host.Outcome.next.inj h
    exact ⟨keepsRegsExcept_setResultAndFlag s x _ _, rfl, rfl, fun _ => rfl⟩
  | sei _ _ | snei _ _ | ser _ _ | sner _ _ =>
    obtain rfl := Host.Outcome.next.inj h
    exact ⟨keepsRegsExcept_of_v_eq (by simp) _, by simp, by simp, by simp⟩
  | halt | jp _ =>
    obtain rfl := Host.Outcome.next.inj h
    exact ⟨keepsRegsExcept_of_v_eq rfl _, rfl, rfl, fun _ => rfl⟩
  | ldix nnn =>
    obtain rfl := Host.Outcome.next.inj h
    exact ⟨keepsRegsExcept_of_v_eq rfl _, rfl, rfl, fun notLdix => absurd rfl (notLdix nnn)⟩
  | call nnn =>
    by_cases full : s.sp.val = 16
    · obtain rfl := Host.Outcome.next.inj ((execCall_of_full nnn s full).symm.trans h)
      exact ⟨keepsRegsExcept_of_v_eq rfl _, rfl, rfl, fun _ => rfl⟩
    · obtain rfl := Host.Outcome.next.inj ((execCall_of_lt nnn s (by omega)).symm.trans h)
      exact ⟨keepsRegsExcept_of_v_eq rfl _, rfl, rfl, fun _ => rfl⟩
  | ret =>
    by_cases empty : s.sp.val = 0
    · obtain rfl := Host.Outcome.next.inj ((execRet_of_empty s empty).symm.trans h)
      exact ⟨keepsRegsExcept_of_v_eq rfl _, rfl, rfl, fun _ => rfl⟩
    · obtain rfl := Host.Outcome.next.inj ((execRet_of_pos s (by omega)).symm.trans h)
      exact ⟨keepsRegsExcept_of_v_eq rfl _, rfl, rfl, fun _ => rfl⟩

/-! ### What does not see the call stack -/

/-- The state with another call stack and stack pointer. -/
def State.withStack (s : State) (stack : Vector Addr 16) (sp : Fin 17) : State := { s with stack := stack, sp := sp }

theorem State.skipIf_withStack (s : State) (stack : Vector Addr 16) (sp : Fin 17) (c : Bool) :
    (s.withStack stack sp).skipIf c = (s.skipIf c).withStack stack sp := by
  cases c <;> rfl

theorem State.applyWrite_withStack (s : State) (stack : Vector Addr 16) (sp : Fin 17) (w : CollabWrite) :
    (s.withStack stack sp).applyWrite w = (s.applyWrite w).withStack stack sp := by
  cases w with
  | reg k b =>
    simp only [State.applyWrite]
    cases Reg.ofNat? k <;> rfl
  | index w => rfl
  | pc t => rfl
  | mem j b => rfl

theorem State.applyWrites_withStack (s : State) (stack : Vector Addr 16) (sp : Fin 17) (ws : List CollabWrite) :
    (s.withStack stack sp).applyWrites ws = (s.applyWrites ws).withStack stack sp := by
  induction ws generalizing s with
  | nil => rfl
  | cons w rest ih => simp only [State.applyWrites_cons, State.applyWrite_withStack, ih]

/-- The stack is not part of what a collaborator sees (R142). -/
theorem State.collabAnswer_withStack (s : State) (stack : Vector Addr 16) (sp : Fin 17) (req : CollabRequest) :
    (s.withStack stack sp).collabAnswer req = s.collabAnswer req := rfl

theorem State.delegate_withStack (s : State) (stack : Vector Addr 16) (sp : Fin 17) (req : CollabRequest) :
    (s.withStack stack sp).delegate req = (s.delegate req).withStack stack sp := by
  simp only [State.delegate, State.collabAnswer_withStack]
  cases s.collabAnswer req with
  | outOfBounds => rfl
  | done ws =>
    by_cases bounded : ws.all writeInBounds = true
    · simp only [if_pos bounded]
      exact s.advance.consumePort.applyWrites_withStack stack sp ws
    · simp only [if_neg bounded]
      rfl

/-- An instruction other than `CALL` and `RET` does the same over another call stack (R30). -/
theorem exec_withStack {i : Instr} {s t : State} (notCall : ∀ nnn, i ≠ .call nnn) (notRet : i ≠ .ret)
    (h : exec i s = .next t) (stack : Vector Addr 16) (sp : Fin 17) :
    exec i (s.withStack stack sp) = .next (t.withStack stack sp) := by
  cases i with
  | call nnn => exact absurd rfl (notCall nnn)
  | ret => exact absurd rfl notRet
  | sei _ _ | snei _ _ | ser _ _ | sner _ _ =>
    obtain rfl := Host.Outcome.next.inj h
    exact congrArg Host.Outcome.next (s.advance.skipIf_withStack stack sp _)
  | halt | jp _ | ldi _ _ | addi _ _ | mov _ _ | or _ _ | and _ _ | xor _ _ | add _ _ | sub _ _ | shr _ _ | subn _ _
  | shl _ _ | ldix _ =>
    obtain rfl := Host.Outcome.next.inj h
    rfl
  | cls | sys _ | jpo _ | rnd _ _ | drw _ _ _ | key _ _ | ext _ _ =>
    obtain rfl := Host.Outcome.next.inj h
    exact congrArg Host.Outcome.next (s.delegate_withStack stack sp _)

/-! ### What does not see the index register -/

theorem State.skipIf_setIndex (s : State) (w : Index) (c : Bool) :
    (s.setIndex w).skipIf c = (s.skipIf c).setIndex w := by
  cases c <;> rfl

theorem exec_ldix_setIndex (nnn : Addr) (s : State) (w : Index) :
    exec (.ldix nnn) (s.setIndex w) = exec (.ldix nnn) s := rfl

/-- A core instruction other than `LDIX` does the same over another index register (R29). -/
theorem exec_setIndex {i : Instr} {s t : State} (core : i.isCore = true) (notLdix : ∀ nnn, i ≠ .ldix nnn)
    (h : exec i s = .next t) (w : Index) : exec i (s.setIndex w) = .next (t.setIndex w) := by
  cases i with
  | cls | sys _ | jpo _ | rnd _ _ | drw _ _ _ | key _ _ | ext _ _ => cases core
  | ldix nnn => exact absurd rfl (notLdix nnn)
  | call nnn =>
    by_cases full : s.sp.val = 16
    · obtain rfl := Host.Outcome.next.inj ((execCall_of_full nnn s full).symm.trans h)
      exact execCall_of_full nnn (s.setIndex w) full
    · obtain rfl := Host.Outcome.next.inj ((execCall_of_lt nnn s (by omega)).symm.trans h)
      exact execCall_of_lt nnn (s.setIndex w) (by simp only [State.setIndex_sp]; omega)
  | ret =>
    by_cases empty : s.sp.val = 0
    · obtain rfl := Host.Outcome.next.inj ((execRet_of_empty s empty).symm.trans h)
      exact execRet_of_empty (s.setIndex w) empty
    · obtain rfl := Host.Outcome.next.inj ((execRet_of_pos s (by omega)).symm.trans h)
      exact execRet_of_pos (s.setIndex w) (by simp only [State.setIndex_sp]; omega)
  | sei _ _ | snei _ _ | ser _ _ | sner _ _ =>
    obtain rfl := Host.Outcome.next.inj h
    exact congrArg Host.Outcome.next (s.advance.skipIf_setIndex w _)
  | halt | jp _ | ldi _ _ | addi _ _ | mov _ _ | or _ _ | and _ _ | xor _ _ | add _ _ | sub _ _ | shr _ _ | subn _ _
  | shl _ _ =>
    obtain rfl := Host.Outcome.next.inj h
    rfl

end Sys2Proof.Machine

namespace Sys2Proof

open Machine

/-- Settles O3: the fault record and memory are kept by every ending of a step. -/
theorem stepKeepsInvariant : Obligations.StepKeepsInvariant :=
  fun _ _ inv h => step_keeps_inv inv h

/-- Settles O4, by induction on the number of steps: each step answers and keeps the invariant. -/
theorem runsKeepInvariant : Obligations.RunsKeepInvariant :=
  fun _ k inv => run_keeps (fun _ _ => step_keeps_inv) inv k

/-- Settles O5: the bounds say that the fault record agrees, which every step keeps, and a step from Running that ends
Faulted is a fault entry. -/
theorem stepKeepsBounds : Obligations.StepKeepsBounds := by
  refine ⟨State.reset.withinBounds_iff.2 reset_inv.1, fun s t bounds h => ⟨?_, fun running faulted => ?_⟩⟩
  · exact t.withinBounds_iff.2 (step_keeps_agreement (s.withinBounds_iff.1 bounds) h)
  · obtain ⟨terminal, -⟩ | ⟨-, ending⟩ := ending_of_step h
    · exact absurd running terminal
    · exact ending.faultEntered running faulted

/-- Settles O21, by the value of each operation as a number. -/
theorem addressUnitIsModular : Obligations.AddressUnitIsModular :=
  ⟨fun n1 n2 n3 => ⟨toNat_addrPack n1 n2 n3, addrN1_addrPack n1 n2 n3, addrN2_addrPack n1 n2 n3,
      addrN3_addrPack n1 n2 n3⟩,
    addrPack_nibbles, toNat_addrOfNat, toNat_addrAdd, toNat_addrSub, addrSub_addrAdd,
    fun a b => ⟨addrEq_iff a b, addrLt_iff a b⟩⟩

/-- Settles O35, by the frame of each core instruction. -/
theorem coreInstructionsKeepTheRest : Obligations.CoreInstructionsKeepTheRest := by
  intro i s t core h
  obtain ⟨regs, mem, port, index⟩ := exec_core_frame core h
  exact ⟨regs, fun a => by rw [mem], port, index⟩

/-- Settles O36: every instruction but the two commutes with a change of the stack. -/
theorem onlyCallAndRetSeeTheStack : Obligations.OnlyCallAndRetSeeTheStack :=
  fun _ _ _ stack sp notCall notRet h => exec_withStack notCall notRet h stack sp

/-- Settles O37: every core instruction but `LDIX` commutes with a change of the index register, and `LDIX` overwrites
the change. -/
theorem noCoreInstructionReadsTheIndex : Obligations.NoCoreInstructionReadsTheIndex := by
  intro i s t w core h
  split
  case h_1 nnn => exact (exec_ldix_setIndex nnn s w).trans h
  case h_2 notLdix => exact exec_setIndex core notLdix h w

/-- Settles O43: the cells of a canonical memory are determined by its reads, and so is their order. -/
theorem canonicalMemoriesAreTheirBytes : Obligations.CanonicalMemoriesAreTheirBytes :=
  fun _ _ => Memory.ext_of_wf

/-- Settles O1, row by row of the table of R41. -/
theorem resetZeroesEverything : Obligations.ResetZeroesEverything := by
  refine ⟨fun r => ?_, rfl, rfl, fun k => ?_, rfl, fun a ha => ?_, rfl, rfl, fun _ => rfl, rfl⟩
  · simp [State.reg, State.reset]
  · simp [State.reset]
  · have indexed : inBounds a 1 = true := by simp only [inBounds, Config.memSize, decide_eq_true_eq]; omega
    simp [Memory.read1, indexed, State.reset]

/-- Settles O2: nothing is recorded and nothing is listed. -/
theorem resetMeetsInvariant : Obligations.ResetMeetsInvariant := reset_inv

/-- Settles O11: the fetch does not wrap, the advance does. -/
theorem fetchAtTopOfMemory : Obligations.FetchAtTopOfMemory := by
  refine ⟨fun s running top => step_of_fetch_none running (s.fetch_at_top top), fun s top => ⟨?_, ?_⟩⟩
  · simpa [top] using s.fetch_of_ne (by simp [top])
  · exact BitVec.eq_of_toNat_eq (by simp [top])

end Sys2Proof
end

section
/-! SUPPORT. The family 20_memory: the four memory primitives, the bytes of a program's words, and the loader. A word
of two bytes is a program of one word, so one lemma about the bytes of words serves `MemWrite` and the loader alike. -/

namespace Sys2Proof.Machine

/-! ### A word and its two bytes (R53) -/

theorem toNat_wordOfBytes (hi lo : Byte) : (wordOfBytes hi lo).toNat = hi.toNat * 256 + lo.toNat :=
  toNat_append_eq hi lo

theorem toNat_highByte (w : Word) : (highByte w).toNat = w.toNat / 256 := by
  have := w.isLt
  simp [highByte, Nat.shiftRight_eq_div_pow]; omega

theorem toNat_lowByte (w : Word) : (lowByte w).toNat = w.toNat % 256 := by
  simp [lowByte]

/-! ### The bounds check (R52) -/

theorem inBounds_iff (a n : Nat) : inBounds a n = true ↔ a + n ≤ 4096 := by
  simp [inBounds]

theorem Memory.read1_of_le (m : Memory) {a : Nat} (h : a + 1 ≤ 4096) :
    Memory.read1 m a = some (Memory.read m a) := if_pos ((inBounds_iff a 1).2 h)

theorem Memory.read1_of_gt (m : Memory) {a : Nat} (h : 4096 < a + 1) : Memory.read1 m a = none :=
  if_neg (mt (inBounds_iff a 1).1 (Nat.not_le.2 h))

theorem Memory.read2_of_le (m : Memory) {a : Nat} (h : a + 2 ≤ 4096) :
    Memory.read2 m a = some (wordOfBytes (Memory.read m a) (Memory.read m (a + 1))) :=
  if_pos ((inBounds_iff a 2).2 h)

theorem Memory.read2_of_gt (m : Memory) {a : Nat} (h : 4096 < a + 2) : Memory.read2 m a = none :=
  if_neg (mt (inBounds_iff a 2).1 (Nat.not_le.2 h))

theorem Memory.write1_of_le (m : Memory) {a : Nat} (b : Byte) (h : a + 1 ≤ 4096) :
    Memory.write1 m a b = some (Memory.write m a b) := if_pos ((inBounds_iff a 1).2 h)

theorem Memory.write1_of_gt (m : Memory) {a : Nat} (b : Byte) (h : 4096 < a + 1) : Memory.write1 m a b = none :=
  if_neg (mt (inBounds_iff a 1).1 (Nat.not_le.2 h))

theorem Memory.write2_of_le (m : Memory) {a : Nat} (w : Word) (h : a + 2 ≤ 4096) :
    Memory.write2 m a w = some (Memory.writeBytes m a (bytesOfWords [w])) := if_pos ((inBounds_iff a 2).2 h)

theorem Memory.write2_of_gt (m : Memory) {a : Nat} (w : Word) (h : 4096 < a + 2) : Memory.write2 m a w = none :=
  if_neg (mt (inBounds_iff a 2).1 (Nat.not_le.2 h))

/-! ### The bytes of a program's words (R65) -/

@[simp] theorem length_bytesOfWords (ws : List Word) : (bytesOfWords ws).length = 2 * ws.length := by
  induction ws with
  | nil => rfl
  | cons w rest ih => simp only [bytesOfWords, List.length_cons, ih]; omega

/-- Word `j` is bytes `2j` and `2j + 1`, high byte first. -/
theorem getElem?_bytesOfWords {ws : List Word} {j : Nat} (h : j < ws.length) :
    (bytesOfWords ws)[2 * j]? = some (highByte ws[j]) ∧ (bytesOfWords ws)[2 * j + 1]? = some (lowByte ws[j]) := by
  induction ws generalizing j with
  | nil => exact absurd h (Nat.not_lt_zero j)
  | cons w rest ih =>
    cases j with
    | zero => exact ⟨rfl, rfl⟩
    | succ k => exact ih (Nat.lt_of_succ_lt_succ h)

/-- After words are written from `off`, the two bytes at `off + 2j` read as word `j`. -/
theorem Memory.read_writeBytes_bytesOfWords (m : Memory) (off : Nat) {ws : List Word} {j : Nat} (h : j < ws.length) :
    Memory.read (Memory.writeBytes m off (bytesOfWords ws)) (off + 2 * j) = highByte ws[j] ∧
      Memory.read (Memory.writeBytes m off (bytesOfWords ws)) (off + 2 * j + 1) = lowByte ws[j] := by
  obtain ⟨high, low⟩ := getElem?_bytesOfWords h
  obtain ⟨inHigh, high⟩ := List.getElem?_eq_some_iff.1 high
  obtain ⟨inLow, low⟩ := List.getElem?_eq_some_iff.1 low
  exact ⟨(m.read_writeBytes_inside off _ inHigh).trans high, (m.read_writeBytes_inside off _ inLow).trans low⟩

/-! ### The loader (R65, R66) -/

/-- A load that fits writes the bytes and returns the next free offset. -/
theorem State.loadInstructions_of_le (s : State) {off : Nat} {ws : List Word} (h : off + 2 * ws.length ≤ 4096) :
    s.loadInstructions off ws =
      .loaded { s with mem := Memory.writeBytes s.mem off (bytesOfWords ws) } (off + 2 * ws.length) := by
  have fits : inBounds off (2 * ws.length) = true := (inBounds_iff _ _).2 h
  simp [State.loadInstructions, State.loadBytes, loadInBounds, fits]

/-- A load of at least one word that does not fit is refused (D24). -/
theorem State.loadInstructions_of_gt (s : State) {off : Nat} {ws : List Word} (hasWord : 0 < ws.length)
    (h : 4096 < off + 2 * ws.length) : s.loadInstructions off ws = .outOfBounds := by
  have tooLong : ¬ inBounds off (2 * ws.length) = true := mt (inBounds_iff _ _).1 (Nat.not_le.2 h)
  have notEmpty : ws ≠ [] := List.ne_nil_of_length_pos hasWord
  simp [State.loadInstructions, State.loadBytes, loadInBounds, tooLong, notEmpty]

/-- The launch of one program that fits: the reset state with the program in memory, at the entry (R176, R178). -/
theorem launchState_loadInstructions {off : Nat} {ws : List Word} (entry : Addr) (h : off + 2 * ws.length ≤ 4096) :
    launchState [.loadInstructions off ws] entry =
      some { State.reset with pc := entry, mem := Memory.writeBytes [] off (bytesOfWords ws) } := by
  simp only [launchState, State.hostActs, State.hostAct, State.loadInstructions_of_le _ h]
  rfl

/-- The fetch reads the word of a program that lies at the program counter (R71). -/
theorem State.fetch_of_writeBytes_bytesOfWords {s : State} {m : Memory} {w : Word} {ws : List Word}
    (inMemory : s.pc.toNat + 2 ≤ 4096) (mem : s.mem = Memory.writeBytes m s.pc.toNat (bytesOfWords (w :: ws))) :
    s.fetch = some w := by
  obtain ⟨high, low⟩ := Memory.read_writeBytes_bytesOfWords m s.pc.toNat (ws := w :: ws) (Nat.zero_lt_succ _)
  have notTop : s.pc ≠ 0xFFF := fun top => by simp [top] at inMemory
  calc
    s.fetch = some (wordOfBytes (highByte w) (lowByte w)) := by
      rw [s.fetch_of_ne notTop, mem]
      exact congrArg some (congrArg₂ wordOfBytes high low)
    _ = some w := by rw [wordOfBytes_high_low]

end Sys2Proof.Machine

namespace Sys2Proof

open Machine

/-- Settles O42, primitive by primitive; the two-byte write is that of a program of one word. -/
theorem memoryPrimitivesAreBoundedAndBigEndian : Obligations.MemoryPrimitivesAreBoundedAndBigEndian := by
  refine ⟨fun m a => ⟨m.read1_of_le, m.read1_of_gt, fun h => ?_, m.read2_of_gt⟩,
    fun m a b => ⟨fun h => ?_, m.write1_of_gt b⟩, fun m a w => ⟨fun h => ?_, m.write2_of_gt w⟩⟩
  · exact ⟨_, m.read2_of_le h, toNat_wordOfBytes _ _⟩
  · exact ⟨_, m.write1_of_le b h, m.read_write_self a b, fun c other => m.read_write_of_ne b other⟩
  · obtain ⟨high, low⟩ := Memory.read_writeBytes_bytesOfWords m a (ws := [w]) Nat.zero_lt_one
    refine ⟨_, m.write2_of_le w h, ?_, ?_, fun c notHigh notLow => ?_⟩
    · exact (congrArg BitVec.toNat high).trans (toNat_highByte w)
    · exact (congrArg BitVec.toNat low).trans (toNat_lowByte w)
    · exact m.read_writeBytes_outside a _ (by simp only [length_bytesOfWords, List.length_singleton]; omega)

/-- Settles O44: the load writes the bytes of the words or is refused before it writes. -/
theorem loadInstructionsIsWholeOrRefused : Obligations.LoadInstructionsIsWholeOrRefused := by
  refine fun s off ws => ⟨fun fits => ⟨_, s.loadInstructions_of_le fits, fun j h => ?_, fun a outside => ?_⟩,
    s.loadInstructions_of_gt⟩
  · obtain ⟨high, low⟩ := Memory.read_writeBytes_bytesOfWords s.mem off h
    rw [high, low]
    exact ⟨toNat_highByte _, toNat_lowByte _⟩
  · exact s.mem.read_writeBytes_outside off _ (by rwa [length_bytesOfWords])

/-- Settles O45: the launch state is reset with the program at its program counter. -/
theorem launchedProgramIsFetched : Obligations.LaunchedProgramIsFetched := by
  intro entry w ws fits
  have wf : Memory.wf (Memory.writeBytes [] entry.toNat (bytesOfWords (w :: ws))) :=
    Memory.wf_writeBytes Memory.wf_nil _ (by rwa [length_bytesOfWords])
  have firstWord : entry.toNat + 2 ≤ 4096 := by omega
  exact ⟨_, launchState_loadInstructions entry fits, State.fetch_of_writeBytes_bytesOfWords firstWord rfl, rfl, rfl,
    reset_inv.1, wf⟩

end Sys2Proof
end

section
/-! SUPPORT. The family 30_encoding: a word decodes to an instruction if and only if it is the word of that instruction
and the instruction is well formed. The rows of the table, the words of `SYS` and the encoding lines of the
instructions follow from that. -/

namespace Sys2Proof

open Machine

/-! ### The nibbles of an encoded word that choose its row (R72, R76) -/

@[simp] theorem family_encodeNNN (c : Nibble) (nnn : Addr) : (encodeNNN c nnn).toNat / 4096 = c.toNat := by
  rw [toNat_encodeNNN]; omega

@[simp] theorem family_encodeXKK (c : Nibble) (x : Reg) (kk : Byte) :
    (encodeXKK c x kk).toNat / 4096 = c.toNat := by
  rw [toNat_encodeXKK]; omega

@[simp] theorem family_encodeXYD (c : Nibble) (x y : Reg) (d : Nibble) :
    (encodeXYD c x y d).toNat / 4096 = c.toNat := by
  rw [toNat_encodeXYD]; omega

@[simp] theorem lastNibble_encodeXYD (c : Nibble) (x y : Reg) (d : Nibble) :
    (encodeXYD c x y d).toNat % 16 = d.toNat := by
  rw [toNat_encodeXYD]; omega

/-- The match of a row of shape `XYD` is its family nibble and its last nibble; the two register fields are free. -/
theorem toNat_encodeXYD_eq_match_add (c : Nibble) (x y : Reg) (d : Nibble) :
    (encodeXYD c x y d).toNat = c.toNat * 4096 + d.toNat + x.index.val * 256 + y.index.val * 16 := by
  rw [toNat_encodeXYD]; omega

/-! ### `SYS` and the three exact words before it (R77, R83) -/

theorem wellFormed_sys_iff (nnn : Addr) :
    wellFormed (.sys nnn) = true ↔ nnn ≠ 0x000 ∧ nnn ≠ 0x0E0 ∧ nnn ≠ 0x0EE := by
  simp [wellFormed, sysOperandTaken, and_assoc]

theorem encodeNNN_injective {c : Nibble} {a b : Addr} (h : encodeNNN c a = encodeNNN c b) : a = b := by
  rw [← fieldNNN_encodeNNN c a, h, fieldNNN_encodeNNN]

/-- A word of family 0 that is none of the three exact words is a `SYS`. -/
theorem decodeWord_of_family_zero {w : Word} (family : w.toNat / 4096 = 0) (notHalt : w ≠ 0x0000)
    (notCls : w ≠ 0x00E0) (notRet : w ≠ 0x00EE) : decodeWord w = some (.sys (fieldNNN w)) := by
  simp only [ne_eq, ← BitVec.toNat_inj, BitVec.reduceToNat] at notHalt notCls notRet
  simp [decodeWord_eq, decodeByFamily, family, notHalt, notCls, notRet]

/-! ### The round trip -/

/-- Decoding undoes encoding: the nibbles of the encoded word lead to the instruction's own arm, and the fields give the
operands back. Only `SYS` needs well-formedness, to pass the three exact words (R84). -/
theorem decodeWord_encode {i : Instr} (wf : wellFormed i = true) : decodeWord (encode i) = some i := by
  cases i with
  | halt | cls | ret => decide
  | sys nnn =>
    obtain ⟨notHalt, notCls, notRet⟩ := (wellFormed_sys_iff nnn).1 wf
    have decoded : decodeWord (encodeNNN 0x0 nnn) = some (.sys (fieldNNN (encodeNNN 0x0 nnn))) :=
      decodeWord_of_family_zero (family_encodeNNN 0x0 nnn) (mt (encodeNNN_injective (b := 0x000)) notHalt)
        (mt (encodeNNN_injective (b := 0x0E0)) notCls) (mt (encodeNNN_injective (b := 0x0EE)) notRet)
    rwa [fieldNNN_encodeNNN] at decoded
  | jp _ | call _ | ldix _ | jpo _
  | sei _ _ | snei _ _ | ldi _ _ | addi _ _ | rnd _ _ | key _ _ | ext _ _
  | ser _ _ | mov _ _ | or _ _ | and _ _ | xor _ _ | add _ _ | sub _ _ | shr _ _ | subn _ _ | shl _ _ | sner _ _
  | drw _ _ _ => simp [decodeWord_eq, decodeByFamily, encode]

/-- Encoding undoes decoding: each arm of the decoder asks of the nibbles what the encoder of its shape writes there
(R83). The arms come in the order of the families, `h_1` for family 0. -/
theorem encode_of_decodeWord {w : Word} {i : Instr} (h : decodeWord w = some i) : encode i = w := by
  rw [decodeWord_eq] at h
  unfold decodeByFamily at h
  split at h
  case h_1 family =>
    split_ifs at h with isHalt isCls isRet <;> cases h
    · exact (BitVec.eq_of_toNat_eq isHalt).symm
    · exact (BitVec.eq_of_toNat_eq isCls).symm
    · exact (BitVec.eq_of_toNat_eq isRet).symm
    · exact encodeNNN_fieldNNN family
  case h_2 family | h_3 family | h_11 family | h_12 family => cases h; exact encodeNNN_fieldNNN family
  case h_4 family | h_5 family | h_7 family | h_8 family | h_13 family | h_15 family | h_16 family =>
    cases h; exact encodeXKK_fields family
  case h_6 family | h_10 family =>
    split_ifs at h with last
    cases h; exact encodeXYD_fields family last
  case h_9 family =>
    split at h <;> rename_i last <;> cases h
    all_goals exact encodeXYD_fields family last
  case h_14 family => cases h; exact encodeXYD_fields family (toNat_fieldD w).symm
  case h_17 => cases h

/-- The decoder never answers a `SYS` with a taken operand: its word decodes to `HALT`, `CLS` or `RET`. -/
theorem wellFormed_of_decodeWord {w : Word} {i : Instr} (h : decodeWord w = some i) : wellFormed i = true := by
  cases i with
  | sys nnn =>
    obtain rfl := encode_of_decodeWord h
    refine (wellFormed_sys_iff nnn).2 ⟨?_, ?_, ?_⟩ <;> rintro rfl <;> exact absurd h (by decide)
  | _ => rfl

/-- The decoder and the encoder are inverse to each other on the well-formed instructions (R82 to R84). -/
theorem decodeWord_eq_some_iff {w : Word} {i : Instr} :
    decodeWord w = some i ↔ encode i = w ∧ wellFormed i = true := by
  constructor
  · exact fun h => ⟨encode_of_decodeWord h, wellFormed_of_decodeWord h⟩
  · rintro ⟨rfl, wf⟩
    exact decodeWord_encode wf

/-- The encoding line of an instruction's rule: its word, as a number. -/
theorem encodedAs_of_toNat_encode {i : Instr} {n : Nat} (wf : wellFormed i = true) (h : (encode i).toNat = n) :
    EncodedAs i n := by
  rw [EncodedAs, ← h, BitVec.ofNat_toNat, BitVec.setWidth_eq]
  exact decodeWord_encode wf

/-- Laid out as bytes, the word is read back whole and what follows it is left (R53, R71). -/
theorem decodeBytes_encodeBytes_append {i : Instr} (wf : wellFormed i = true) (rest : List Byte) :
    decodeBytes (encodeBytes i ++ rest) = .instr i rest := by
  simp [encodeBytes, decodeBytes, decodeWord_encode wf]

/-! ### The rows of the table (R76) -/

/-- A row builds only instructions of its own mnemonic (R86). -/
theorem DispatchRow.mnemonic_build {r : DispatchRow} (hr : r ∈ dispatchTable) (w : Word) :
    (r.build w).mnemonic = r.mnemonic := by
  revert r
  simp [dispatchTable, dispatchFamily0, dispatchFamilies1to7, dispatchFamily8, dispatchFamilies9toF, Instr.mnemonic]

/-- The row that a word selects has the mnemonic of the instruction that the word decodes to. -/
theorem mnemonic_dispatchRow? (w : Word) :
    (dispatchRow? w).map DispatchRow.mnemonic = (decodeWord w).map Instr.mnemonic := by
  unfold decodeWord
  cases found : dispatchRow? w with
  | none => rfl
  | some r => exact congrArg some (DispatchRow.mnemonic_build (List.mem_of_find?_eq_some found) w).symm

/-- Two rows that one word selects agree on the bits that both masks cover. -/
theorem DispatchRow.expected_and_mask_of_selects {r q : DispatchRow} {w : Word} (hr : r.selects w = true)
    (hq : q.selects w = true) : r.expected &&& q.mask = q.expected &&& r.mask := by
  simp only [DispatchRow.selects, beq_iff_eq] at hr hq
  rw [← hr, ← hq, BitVec.and_assoc, BitVec.and_assoc, BitVec.and_comm r.mask]

/-- No two rows agree on the bits that both masks cover, but the exact rows with `SYS` (R77). -/
theorem expected_and_mask_ne_of_ne_sys : ∀ j k : Fin 27, j < k → k ≠ 3 →
    dispatchTable[j].expected &&& dispatchTable[k].mask ≠ dispatchTable[k].expected &&& dispatchTable[j].mask := by
  decide

/-- `SYS` is the words of family 0 but the three exact ones (R77). -/
theorem decodeWord_eq_sys_iff (w : Word) : (∃ nnn, decodeWord w = some (.sys nnn)) ↔
    w.toNat < 4096 ∧ w ≠ 0x0000 ∧ w ≠ 0x00E0 ∧ w ≠ 0x00EE := by
  constructor
  · rintro ⟨nnn, h⟩
    have inFamily : w.toNat < 4096 := by
      rw [← encode_of_decodeWord h]
      simpa [encode, toNat_encodeNNN] using nnn.isLt
    refine ⟨inFamily, ?_, ?_, ?_⟩ <;> rintro rfl
    · exact nomatch (decodeWord_encode (i := .halt) rfl).symm.trans h
    · exact nomatch (decodeWord_encode (i := .cls) rfl).symm.trans h
    · exact nomatch (decodeWord_encode (i := .ret) rfl).symm.trans h
  · rintro ⟨family, notHalt, notCls, notRet⟩
    exact ⟨fieldNNN w, decodeWord_of_family_zero (Nat.div_eq_of_lt family) notHalt notCls notRet⟩

/-! ### The assembler (R83, R85) -/

@[simp] theorem assembleNNN_toNat (make : Addr → Instr) (nnn : Addr) :
    assembleNNN make nnn.toNat = some (make nnn) := by
  simp [assembleNNN]

@[simp] theorem assembleXKK_toNat (make : Reg → Byte → Instr) (x : Reg) (kk : Byte) :
    assembleXKK make x.index.val kk.toNat = some (make x kk) := by
  simp [assembleXKK]

@[simp] theorem assembleXYD_val (make : Reg → Reg → Instr) (x y : Reg) :
    assembleXYD make x.index.val y.index.val = some (make x y) := by
  simp [assembleXYD]

@[simp] theorem assembleXYN_toNat (make : Reg → Reg → Nibble → Instr) (x y : Reg) (d : Nibble) :
    assembleXYN make x.index.val y.index.val d.toNat = some (make x y d) := by
  simp [assembleXYN]

/-- The mnemonic selects the constructor of the instruction's shape, and every operand fits. -/
theorem assembleToken_mnemonic_operands (i : Instr) : assembleToken i.mnemonic i.operands = some i := by
  cases i with
  | halt | cls | ret => rfl
  | sys nnn | jp nnn | call nnn | ldix nnn | jpo nnn => exact assembleNNN_toNat _ nnn
  | sei x kk | snei x kk | ldi x kk | addi x kk | rnd x kk | key x kk | ext x kk => exact assembleXKK_toNat _ x kk
  | ser x y | mov x y | or x y | and x y | xor x y | add x y | sub x y | shr x y | subn x y | shl x y | sner x y =>
    exact assembleXYD_val _ x y
  | drw x y d => exact assembleXYN_toNat _ x y d

/-- Whatever a token assembles to has that token as its mnemonic and the operands given; a shift with one operand has
`y = 0` (R85). -/
theorem assembleToken_spec {token : String} {ops : List Nat} {i : Instr} (h : assembleToken token ops = some i) :
    i.mnemonic = token ∧
      (i.operands = ops ∨ ∃ x, ops = [x] ∧ i.operands = [x, 0] ∧ (token = "SHR" ∨ token = "SHL")) := by
  unfold assembleToken at h
  split at h
  case h_1 =>
    obtain ⟨name, operands⟩ := makeN0_spec h
    exact ⟨name, .inl operands⟩
  case h_2 a =>
    split at h
    case h_1 make _ chosen =>
      obtain ⟨nnn, rfl, rfl⟩ := assembleNNN_cases h
      obtain ⟨name, operands⟩ := makeNNN_spec chosen nnn
      exact ⟨name, .inl operands⟩
    case h_2 make _ chosen =>
      obtain ⟨x, y, rfl, zero, rfl⟩ := assembleXYD_cases h
      obtain ⟨shift, spec⟩ := makeShift_spec chosen
      obtain ⟨name, operands⟩ := spec x y
      exact ⟨name, .inr ⟨x.index.val, rfl, zero ▸ operands, shift⟩⟩
    case h_3 => cases h
  case h_3 a b =>
    split at h
    case h_1 make _ chosen =>
      obtain ⟨x, kk, rfl, rfl, rfl⟩ := assembleXKK_cases h
      obtain ⟨name, operands⟩ := makeXKK_spec chosen x kk
      exact ⟨name, .inl operands⟩
    case h_2 make _ chosen =>
      obtain ⟨x, y, rfl, rfl, rfl⟩ := assembleXYD_cases h
      obtain ⟨name, operands⟩ := makeXYD_spec chosen x y
      exact ⟨name, .inl operands⟩
    case h_3 => cases h
  case h_4 a b c =>
    split at h
    case h_1 make chosen =>
      obtain ⟨x, y, d, rfl, rfl, rfl, rfl⟩ := assembleXYN_cases h
      obtain ⟨name, operands⟩ := makeXYN_spec chosen x y d
      exact ⟨name, .inl operands⟩
    case h_2 => cases h
  case h_5 => cases h

theorem assemble_eq_some_iff {token : String} {ops : List Nat} {i : Instr} :
    assemble token ops = some i ↔ assembleToken token ops = some i ∧ wellFormed i = true := by
  simp [assemble, Option.filter_eq_some_iff]

end Sys2Proof

namespace Sys2Proof.Machine

/-! ### The shifts (R133, R135) -/

theorem toNat_shrResult (a : Byte) : (shrResult a).toNat = a.toNat / 2 := by
  simp [shrResult, Nat.shiftRight_eq_div_pow]

theorem toNat_shlResult (a : Byte) : (shlResult a).toNat = 2 * a.toNat % 256 := by
  simp [shlResult, Nat.shiftLeft_eq, Nat.mul_comm]

/-- A flag taken from a bit is that bit as a number. -/
theorem toNat_bitFlag (k : Nat) (a : Byte) : (bitFlag k a).toNat = a.toNat / 2 ^ k % 2 := by
  rw [bitFlag, BitVec.getLsbD, Nat.testBit_eq_decide_div_mod_eq]
  rcases Nat.mod_two_eq_zero_or_one (a.toNat / 2 ^ k) with clear | set
  · simp [clear]
  · simp [set]

theorem toNat_shrFlag (a : Byte) : (shrFlag a).toNat = a.toNat / 128 := by
  have := a.isLt
  exact (toNat_bitFlag 7 a).trans (by omega)

theorem toNat_shlFlag (a : Byte) : (shlFlag a).toNat = a.toNat % 2 :=
  (toNat_bitFlag 0 a).trans (by omega)

/-! ### The state after a flag-writing instruction (R126) -/

theorem State.reg_setResultAndFlag_flag (s : State) (x : Reg) (a f : Byte) :
    (s.setResultAndFlag x a f).reg .VF = f := by
  simp [State.reg_setResultAndFlag]

theorem State.reg_setResultAndFlag_of_ne (s : State) {x : Reg} (a f : Byte) (h : x ≠ .VF) :
    (s.setResultAndFlag x a f).reg x = a := by
  simp [State.reg_setResultAndFlag, h]

theorem pcAdvanced_setResultAndFlag (s : State) (x : Reg) (a f : Byte) :
    PcAdvanced 2 s (s.advance.setResultAndFlag x a f) := by
  simp [PcAdvanced]

theorem onlyRegsAndPc_setResultAndFlag (s : State) (x : Reg) (a f : Byte) :
    OnlyRegsAndPc [x, .VF] s (s.advance.setResultAndFlag x a f) :=
  ⟨keepsRegsExcept_setResultAndFlag s x a f, rfl, ⟨rfl, fun _ => rfl⟩, fun _ => rfl, ⟨rfl, rfl⟩, rfl⟩

/-- `SHR` on the machine: the `y` field has no part in it (R81). -/
theorem exec_shr (x y : Reg) (s : State) : exec (.shr x y) s =
    .next (s.advance.setResultAndFlag x (shrResult (s.reg x)) (shrFlag (s.reg x))) := rfl

/-- `SHL` on the machine: the `y` field has no part in it (R81). -/
theorem exec_shl (x y : Reg) (s : State) : exec (.shl x y) s =
    .next (s.advance.setResultAndFlag x (shlResult (s.reg x)) (shlFlag (s.reg x))) := rfl

end Sys2Proof.Machine

namespace Sys2Proof

open Machine

/-- Settles O16: the decoder undoes the encoder, on words and so on bytes, and a row bears the mnemonic of what it
builds. -/
theorem decodeOfEncodeIsTheInstruction : Obligations.DecodeOfEncodeIsTheInstruction := by
  intro i wf
  have decoded := decodeWord_encode wf
  refine ⟨decoded, ?_, decodeBytes_encodeBytes_append wf⟩
  rw [mnemonic_dispatchRow?, decoded, Option.map_some]

/-- Settles O17: the encoder undoes the decoder, arm by arm. -/
theorem encodeOfDecodeIsTheWord : Obligations.EncodeOfDecodeIsTheWord :=
  fun _ _ => decodeWord_eq_some_iff.1

/-- Settles O7: an instruction has one of three endings, and a step is an instruction, a fault of the engine, or nothing
at all. -/
theorem everyInstructionAnswersNext : Obligations.EveryInstructionAnswersNext :=
  ⟨fun i s => (exec_ending i s).imp fun _ ending => ending.1, fun s => (step_ending s).imp fun _ ending => ending.1⟩

/-- Settles O13: what two rows select in common must agree on both masks, which leaves `SYS` and the exact rows. -/
theorem exactRowsComeBeforeSys : Obligations.ExactRowsComeBeforeSys := by
  refine ⟨decodeWord_encode (i := .halt) rfl, decodeWord_encode (i := .cls) rfl, decodeWord_encode (i := .ret) rfl,
    decodeWord_eq_sys_iff, fun j k w before first second => ?_⟩
  by_contra notSys
  exact expected_and_mask_ne_of_ne_sys j k before notSys (DispatchRow.expected_and_mask_of_selects first second)

/-- Settles O18: the number of each word is that of its shape with the match of its row. -/
theorem encodersPlaceOperands : Obligations.EncodersPlaceOperands :=
  ⟨rfl, rfl, rfl, toNat_encodeNNN 0x0, toNat_encodeNNN 0x1, toNat_encodeNNN 0x2, toNat_encodeNNN 0xA,
    toNat_encodeNNN 0xB, toNat_encodeXKK 0x3, toNat_encodeXKK 0x4, toNat_encodeXKK 0x6, toNat_encodeXKK 0x7,
    toNat_encodeXKK 0xC, toNat_encodeXKK 0xE, toNat_encodeXKK 0xF,
    fun x y => toNat_encodeXYD_eq_match_add 0x5 x y 0x0, fun x y => toNat_encodeXYD_eq_match_add 0x8 x y 0x0,
    fun x y => toNat_encodeXYD_eq_match_add 0x8 x y 0x1, fun x y => toNat_encodeXYD_eq_match_add 0x8 x y 0x2,
    fun x y => toNat_encodeXYD_eq_match_add 0x8 x y 0x3, fun x y => toNat_encodeXYD_eq_match_add 0x8 x y 0x4,
    fun x y => toNat_encodeXYD_eq_match_add 0x8 x y 0x5, fun x y => toNat_encodeXYD_eq_match_add 0x8 x y 0x6,
    fun x y => toNat_encodeXYD_eq_match_add 0x8 x y 0x7, fun x y => toNat_encodeXYD_eq_match_add 0x8 x y 0xE,
    fun x y => toNat_encodeXYD_eq_match_add 0x9 x y 0x0, toNat_encodeXYD 0xD⟩

/-- Settles O19: an instruction's own token and operands assemble to it, and what a token assembles to has the operands
given. -/
theorem assemblerNeverTruncates : Obligations.AssemblerNeverTruncates := by
  refine ⟨fun i wf => assemble_eq_some_iff.2 ⟨assembleToken_mnemonic_operands i, wf⟩, fun token ops i h => ?_⟩
  obtain ⟨assembled, wf⟩ := assemble_eq_some_iff.1 h
  exact ⟨wf, assembleToken_spec assembled⟩

/-- Settles O34, by the number of each result and of each flag; neither meaning reads `y`. -/
theorem shiftsWriteTheirFlagBit : Obligations.ShiftsWriteTheirFlagBit := by
  refine fun x y => ⟨encodedAs_of_toNat_encode rfl (toNat_encodeXYD_eq_match_add 0x8 x y 0x6),
    encodedAs_of_toNat_encode rfl (toNat_encodeXYD_eq_match_add 0x8 x y 0xE), fun s =>
    ⟨⟨_, exec_shr x y s, fun notFlag => ?_, ?_, pcAdvanced_setResultAndFlag s x _ _,
        onlyRegsAndPc_setResultAndFlag s x _ _, fun y' => exec_shr x y' s⟩,
      ⟨_, exec_shl x y s, fun notFlag => ?_, ?_, pcAdvanced_setResultAndFlag s x _ _,
        onlyRegsAndPc_setResultAndFlag s x _ _, fun y' => exec_shl x y' s⟩⟩⟩
  · rw [State.reg_setResultAndFlag_of_ne _ _ _ notFlag, toNat_shrResult]
  · rw [State.reg_setResultAndFlag_flag, toNat_shrFlag]
  · rw [State.reg_setResultAndFlag_of_ne _ _ _ notFlag, toNat_shlResult]
  · rw [State.reg_setResultAndFlag_flag, toNat_shlFlag]

/-- Settles O15: each word runs through the table. -/
theorem wordsOfEveryFamilyDecode : Obligations.WordsOfEveryFamilyDecode := by
  unfold Obligations.WordsOfEveryFamilyDecode
  decide

/-- Settles O20: each direction undoes the other, and the sixteen numbers are those of the list. -/
theorem registerNamesAreABijection : Obligations.RegisterNamesAreABijection :=
  ⟨Reg.ofIndex_index, Reg.index_ofIndex, rfl⟩

end Sys2Proof
end

section
/-! SUPPORT. The family 40_engine_cycle: the transitions of the run state, the causes of the faults, what a
collaborator's writes commit, and the word a host places for the next step. -/

namespace Sys2Proof.Machine

/-! ### The bounds check on an answer (R144) -/

theorem all_writeInBounds_iff (ws : List CollabWrite) : ws.all writeInBounds = true ↔
    (∀ k b, .reg k b ∈ ws → k < 16) ∧ ∀ j b, .mem j b ∈ ws → j < 4096 := by
  rw [List.all_eq_true]
  constructor
  · intro bounded
    refine ⟨fun k b asked => ?_, fun j b asked => ?_⟩
    · simpa [writeInBounds] using bounded _ asked
    · exact (inBounds_iff j 1).1 (bounded _ asked)
  · rintro ⟨regs, mem⟩ w asked
    cases w with
    | reg k b => simpa [writeInBounds] using regs k b asked
    | index _ | pc _ => rfl
    | mem j b => exact (inBounds_iff j 1).2 (mem j b asked)

theorem all_writeInBounds_eq_false_iff (ws : List CollabWrite) : ws.all writeInBounds = false ↔
    (∃ k b, .reg k b ∈ ws ∧ 16 ≤ k) ∨ ∃ j b, .mem j b ∈ ws ∧ 4096 ≤ j := by
  rw [← Bool.not_eq_true, all_writeInBounds_iff, not_and_or]
  push Not
  rfl

/-- What the core refuses: a read out of bounds that the collaborator reports, or a write out of bounds that it asks
for (R144). -/
def State.AnswerRefused (s : State) (req : CollabRequest) : Prop :=
  s.collabAnswer req = .outOfBounds ∨ ∃ ws, s.collabAnswer req = .done ws ∧
    ((∃ k b, .reg k b ∈ ws ∧ 16 ≤ k) ∨ ∃ j b, .mem j b ∈ ws ∧ 4096 ≤ j)

/-- An answer in bounds is committed (R143). -/
theorem State.delegate_of_bounded {s : State} {req : CollabRequest} {ws : List CollabWrite}
    (answer : s.collabAnswer req = .done ws) (bounded : ws.all writeInBounds = true) :
    s.delegate req = s.advance.consumePort.applyWrites ws := by
  simp only [State.delegate, answer, if_pos bounded]

/-- A delegated instruction leaves `RUN` and `FAULT` as they are, or its answer is refused. -/
theorem State.delegate_status (s : State) (req : CollabRequest) :
    KeepsStatus s (s.delegate req) ∨ s.AnswerRefused req ∧ s.delegate req = s.takeFault .outOfBounds := by
  obtain ⟨ws, -, -, commit⟩ | ⟨refused, fault⟩ := s.delegate_cases req
  · rw [commit]
    obtain ⟨-, -, run, fault, -⟩ := s.advance.consumePort.applyWrites_frame ws
    exact .inl ⟨run, fault⟩
  · simp only [all_writeInBounds_eq_false_iff] at refused
    exact .inr ⟨refused, fault⟩

/-! ### Which instruction halts and which faults -/

/-- The faults that an instruction itself raises, each with its cause (R156 to R158). -/
inductive InstrFault (s : State) (i : Instr) : FaultRecord → Prop where
  | stackOverflow {nnn : Addr} (call : i = .call nnn) (full : s.sp.val = 16) : InstrFault s i .stackOverflow
  | stackUnderflow (ret : i = .ret) (empty : s.sp.val = 0) : InstrFault s i .stackUnderflow
  | outOfBounds {req : CollabRequest} (delegated : i = requestInstr req) (refused : s.AnswerRefused req) :
      InstrFault s i .outOfBounds

/-- How an instruction ends, with the reason: it leaves `RUN` and `FAULT` as they are, it is `HALT`, or it enters a
fault whose cause it has. -/
inductive ExecStatus (s : State) (i : Instr) : State → Prop where
  | keeps {t : State} (status : KeepsStatus s t) : ExecStatus s i t
  | halts {t : State} (halt : i = .halt) (run : t.run = .halted) : ExecStatus s i t
  | faults {reason : FaultRecord} (cause : InstrFault s i reason) : ExecStatus s i (s.takeFault reason)

theorem execStatus_requestInstr (s : State) (req : CollabRequest) :
    ExecStatus s (requestInstr req) (s.delegate req) := by
  obtain status | ⟨refused, fault⟩ := s.delegate_status req
  · exact .keeps status
  · rw [fault]
    exact .faults (.outOfBounds rfl refused)

theorem exec_status (i : Instr) (s : State) : ∃ t, exec i s = .next t ∧ ExecStatus s i t := by
  cases i with
  | halt => exact ⟨_, rfl, .halts rfl rfl⟩
  | call nnn =>
    by_cases full : s.sp.val = 16
    · exact ⟨_, execCall_of_full nnn s full, .faults (.stackOverflow rfl full)⟩
    · exact ⟨_, execCall_of_lt nnn s (by omega), .keeps ⟨rfl, rfl⟩⟩
  | ret =>
    by_cases empty : s.sp.val = 0
    · exact ⟨_, execRet_of_empty s empty, .faults (.stackUnderflow rfl empty)⟩
    · exact ⟨_, execRet_of_pos s (by omega), .keeps ⟨rfl, rfl⟩⟩
  | sei _ _ | snei _ _ | ser _ _ | sner _ _ => exact ⟨_, rfl, .keeps (by simp [KeepsStatus])⟩
  | jp _ | ldi _ _ | addi _ _ | mov _ _ | or _ _ | and _ _ | xor _ _ | add _ _ | sub _ _ | shr _ _ | subn _ _
  | shl _ _ | ldix _ => exact ⟨_, rfl, .keeps ⟨rfl, rfl⟩⟩
  | cls => exact ⟨_, rfl, execStatus_requestInstr s .cls⟩
  | sys nnn => exact ⟨_, rfl, execStatus_requestInstr s (.sys nnn)⟩
  | jpo nnn => exact ⟨_, rfl, execStatus_requestInstr s (.jpo nnn)⟩
  | rnd x kk => exact ⟨_, rfl, execStatus_requestInstr s (.rnd x kk)⟩
  | drw x y d => exact ⟨_, rfl, execStatus_requestInstr s (.drw x y d)⟩
  | key x kk => exact ⟨_, rfl, execStatus_requestInstr s (.key x kk)⟩
  | ext x kk => exact ⟨_, rfl, execStatus_requestInstr s (.ext x kk)⟩

/-- The same, of a given next state. -/
theorem execStatus_of_exec {i : Instr} {s t : State} (h : exec i s = .next t) : ExecStatus s i t := by
  obtain ⟨u, hu, status⟩ := exec_status i s
  obtain rfl : u = t := Host.Outcome.next.inj (hu.symm.trans h)
  exact status

/-- Only `HALT` takes a Running state to Halted (R105). -/
theorem eq_halt_of_exec_halted {i : Instr} {s t : State} (running : s.run = .running) (h : exec i s = .next t)
    (halted : t.run = .halted) : i = .halt := by
  cases execStatus_of_exec h with
  | keeps status => simp [status.1, running] at halted
  | halts halt run => exact halt
  | faults cause => simp at halted

/-- An instruction that takes a Running state to Faulted has a cause for the fault it records. -/
theorem instrFault_of_exec_faulted {i : Instr} {s t : State} (running : s.run = .running) (h : exec i s = .next t)
    (faulted : t.run = .faulted) : InstrFault s i t.fault := by
  cases execStatus_of_exec h with
  | keeps status => simp [status.1, running] at faulted
  | halts halt run => simp [run] at faulted
  | faults cause => exact cause

/-- A step that takes a Running state to Faulted changes nothing but `RUN` and `FAULT` (R161). -/
theorem faultEntered_of_step {s t : State} (running : s.run = .running) (h : step s = .next t)
    (faulted : t.run = .faulted) : FaultEntered t.fault s t := by
  obtain ⟨terminal, -⟩ | ⟨-, ending⟩ := ending_of_step h
  · exact absurd running terminal
  · exact ending.faultEntered running faulted

/-- A Running state becomes Halted exactly on the halt word (R90, R105). -/
theorem run_halted_iff_fetch_halt {s t : State} (running : s.run = .running) (h : step s = .next t) :
    t.run = .halted ↔ s.fetch = some (encode .halt) := by
  constructor
  · intro halted
    obtain ⟨terminal, -⟩ | ⟨-, -, hs⟩ | ⟨w, -, -, -, hs⟩ | ⟨w, i, -, fetched, decoded, hs⟩ := step_cases s
    · exact absurd running terminal
    · obtain rfl := Host.Outcome.next.inj (hs.symm.trans h)
      simp at halted
    · obtain rfl := Host.Outcome.next.inj (hs.symm.trans h)
      simp at halted
    · obtain rfl := eq_halt_of_exec_halted running (hs.symm.trans h) halted
      rw [fetched, encode_of_decodeWord decoded]
  · intro fetched
    obtain rfl := Host.Outcome.next.inj ((step_of_fetch_halt running fetched).symm.trans h)
    rfl

/-! ### The places a collaborator may write (R143) -/

/-- What `get` reads is a place that exactly the writes `put b` write. -/
structure IsPlace {β : Type} (get : State → β) (put : β → CollabWrite) : Prop where
  written : ∀ (s : State) b, get (s.applyWrite (put b)) = b
  kept : ∀ (s : State) w, (∀ b, w ≠ put b) → get (s.applyWrite w) = get s

section

variable {β : Type} {get : State → β} {put : β → CollabWrite}

/-- A place that no write of an answer names is as before. -/
theorem IsPlace.applyWrites_of_absent (place : IsPlace get put) {ws : List CollabWrite} (absent : ∀ b, put b ∉ ws)
    (s : State) : get (s.applyWrites ws) = get s := by
  induction ws generalizing s with
  | nil => rfl
  | cons w rest ih =>
    have notFirst : ∀ b, w ≠ put b := fun b e => absent b (e ▸ List.mem_cons_self)
    have notLater : ∀ b, put b ∉ rest := fun b later => absent b (List.mem_cons_of_mem w later)
    rw [State.applyWrites_cons, ih notLater, place.kept s w notFirst]

/-- A place holds the value that all the writes to it agree on: the last of them is followed by writes to other
places only. -/
theorem IsPlace.applyWrites_of_agree (place : IsPlace get put) {ws : List CollabWrite} {b : β} (asked : put b ∈ ws)
    (agree : ∀ b', put b' ∈ ws → b' = b) (s : State) : get (s.applyWrites ws) = b := by
  induction ws generalizing s with
  | nil => simp at asked
  | cons w rest ih =>
    have agreeLater : ∀ b', put b' ∈ rest → b' = b := fun b' later => agree b' (List.mem_cons_of_mem w later)
    by_cases again : put b ∈ rest
    · exact ih again agreeLater (s.applyWrite w)
    · obtain rfl : put b = w := (List.mem_cons.1 asked).resolve_right again
      have notLater : ∀ b', put b' ∉ rest := fun b' later => again (agreeLater b' later ▸ later)
      rw [State.applyWrites_cons, place.applyWrites_of_absent notLater, place.written]

end

/-- A write to a register, in range or not, reaches no other kind of place. -/
theorem State.applyWrite_reg_frame (s : State) (k : Nat) (b : Byte) :
    (s.applyWrite (.reg k b)).pc = s.pc ∧ (s.applyWrite (.reg k b)).i = s.i ∧
      (s.applyWrite (.reg k b)).mem = s.mem := by
  simp only [State.applyWrite]
  split <;> exact ⟨rfl, rfl, rfl⟩

theorem isPlace_reg (r : Reg) : IsPlace (·.reg r) (.reg r.index.val) where
  written s b := by simp [State.applyWrite]
  kept s w other := by
    cases w with
    | reg k b =>
      by_cases inRange : k < 16
      · have another : r ≠ Reg.ofIndex ⟨k, inRange⟩ := by
          rintro rfl
          exact other b (by simp)
        simp only [State.applyWrite, Reg.ofNat?_of_lt inRange, State.reg_setReg_of_ne s b another]
      · simp only [State.applyWrite, Reg.ofNat?_of_ge (Nat.le_of_not_lt inRange)]
    | index _ | pc _ | mem _ _ => rfl

theorem isPlace_mem (a : Nat) : IsPlace (fun s => Memory.read s.mem a) (.mem a) where
  written s b := s.mem.read_write_self a b
  kept s w other := by
    cases w with
    | reg k b =>
      obtain ⟨-, -, mem⟩ := s.applyWrite_reg_frame k b
      exact congrArg (Memory.read · a) mem
    | index _ | pc _ => rfl
    | mem j b =>
      have another : a ≠ j := by
        rintro rfl
        exact other b rfl
      exact s.mem.read_write_of_ne b another

theorem isPlace_index : IsPlace State.i .index where
  written _ _ := rfl
  kept s w other := by
    cases w with
    | reg k b =>
      obtain ⟨-, index, -⟩ := s.applyWrite_reg_frame k b
      exact index
    | index w => exact absurd rfl (other w)
    | pc _ | mem _ _ => rfl

theorem isPlace_pc : IsPlace State.pc .pc where
  written _ _ := rfl
  kept s w other := by
    cases w with
    | reg k b =>
      obtain ⟨pc, -, -⟩ := s.applyWrite_reg_frame k b
      exact pc
    | pc t => exact absurd rfl (other t)
    | index _ | mem _ _ => rfl

/-! ### The word placed for the next step -/

theorem decodeTableWord_eq (nbits w : Nat) :
    decodeTableWord nbits w = decodeWord (BitVec.ofNat 16 (w % 2 ^ nbits)) := by
  simp only [decodeTableWord, decodeBytes, wordOfBytes_high_low]
  cases decodeWord (BitVec.ofNat 16 (w % 2 ^ nbits)) <;> rfl

/-- The word is placed where a fetch can read it (R56). -/
theorem State.placeNextWord_pc_ne_top (s : State) (w : Word) : (s.placeNextWord w).pc ≠ 0xFFF := by
  simp only [State.placeNextWord]
  split
  · decide
  · assumption

theorem State.fetch_placeNextWord (s : State) (w : Word) : (s.placeNextWord w).fetch = some w := by
  have inMemory : (s.placeNextWord w).pc.toNat + 2 ≤ 4096 := by
    have below := (s.placeNextWord w).pc.isLt
    have notTop := mt BitVec.eq_of_toNat_eq (s.placeNextWord_pc_ne_top w)
    simp only [BitVec.reduceToNat] at notTop
    omega
  exact State.fetch_of_writeBytes_bytesOfWords (ws := []) inMemory rfl

end Sys2Proof.Machine

namespace Sys2Proof

open Machine

/-- Settles O6: a terminal state steps to itself, so every number of steps leads back to it. -/
theorem terminalStatesNeverChange : Obligations.TerminalStatesNeverChange :=
  fun _ terminal => run_of_terminal terminal

/-- Settles O8: only `HALT` takes a Running state to Halted, and 0x0000 is the only word of `HALT`. -/
theorem runStateTransitions : Obligations.RunStateTransitions := by
  refine ⟨fun s => ?_, fun s => ⟨rfl, rfl⟩⟩
  obtain ⟨t, hs, -⟩ := step_ending s
  refine ⟨t, hs, fun terminal => ?_, fun running => run_halted_iff_fetch_halt running hs⟩
  exact (Host.Outcome.next.inj ((step_of_terminal terminal).symm.trans hs)).symm

/-- Settles O9: the engine's own two faults have their causes in the order of the step, and an instruction's faults have
the causes of `InstrFault`. -/
theorem faultsArePreciseAndCaused : Obligations.FaultsArePreciseAndCaused := by
  intro s t running h faulted
  refine ⟨faultEntered_of_step running h faulted, ?_⟩
  obtain ⟨terminal, -⟩ | ⟨-, noFetch, hs⟩ | ⟨w, -, fetched, noRow, hs⟩ | ⟨w, i, -, fetched, decoded, hs⟩ :=
    step_cases s
  · exact absurd running terminal
  · obtain rfl := Host.Outcome.next.inj (hs.symm.trans h)
    exact .inl ⟨rfl, s.fetch_eq_none_iff.1 noFetch⟩
  · obtain rfl := Host.Outcome.next.inj (hs.symm.trans h)
    exact .inr (.inr (.inl ⟨w, rfl, fetched, noRow⟩))
  · have cause := instrFault_of_exec_faulted running (hs.symm.trans h) faulted
    generalize t.fault = reason at cause ⊢
    cases cause with
    | stackOverflow call full =>
      exact .inr (.inr (.inr (.inl ⟨rfl, full, w, _, fetched, call ▸ decoded⟩)))
    | stackUnderflow ret empty =>
      exact .inr (.inr (.inr (.inr ⟨rfl, empty, w, fetched, ret ▸ decoded⟩)))
    | outOfBounds delegated refused =>
      exact .inr (.inl ⟨rfl, w, _, fetched, delegated ▸ decoded, refused⟩)

/-- Settles O39: each register, byte, `I` and `pc` is a place, and the writes are committed over the advanced state. -/
theorem collaboratorWritesAreCommitted : Obligations.CollaboratorWritesAreCommitted := by
  intro req s ws answer regs mem
  have commit := State.delegate_of_bounded answer ((all_writeInBounds_iff ws).2 ⟨regs, mem⟩)
  obtain ⟨stack, sp, run, fault, -⟩ := s.advance.consumePort.applyWrites_frame ws
  refine ⟨_, (exec_requestInstr req s).trans (congrArg Host.Outcome.next commit), ⟨sp, fun k => by rw [stack]; rfl⟩,
    ⟨run, fault⟩, fun r b asked agree => (isPlace_reg r).applyWrites_of_agree asked agree _,
    fun r absent => (isPlace_reg r).applyWrites_of_absent absent _,
    fun a b asked agree => (isPlace_mem a).applyWrites_of_agree asked agree _,
    fun a absent => (isPlace_mem a).applyWrites_of_absent absent _,
    fun w asked agree => isPlace_index.applyWrites_of_agree asked agree _,
    fun absent => isPlace_index.applyWrites_of_absent absent _,
    fun p asked agree => isPlace_pc.applyWrites_of_agree asked agree _, fun absent => ?_⟩
  rw [PcAdvanced, isPlace_pc.applyWrites_of_absent absent]
  exact s.toNat_npc

/-- Settles O10: below 0xFFF the fetch reads the two bytes. -/
theorem stepRunsDecodedInstruction : Obligations.StepRunsDecodedInstruction :=
  fun s _ running notTop decoded => step_of_decode_some running (s.fetch_of_ne notTop) decoded

/-- Settles O47: the placed state is Running and fetches the word, which decodes as the table's word does. -/
theorem placedWordIsRunNext : Obligations.PlacedWordIsRunNext := by
  intro s w i decoded
  rw [decodeTableWord_eq] at decoded
  exact step_of_decode_some rfl (s.fetch_placeNextWord _) decoded

end Sys2Proof
end

section
/-! SUPPORT. The family 41_family0_system: `HALT` commits the advanced state, Halted. -/

namespace Sys2Proof.Machine

/-- `HALT` on the machine: the advanced state with `RUN` Halted (R105, D7). -/
theorem exec_halt (s : State) : exec .halt s = .next { s.advance with run := .halted } := rfl

end Sys2Proof.Machine

namespace Sys2Proof

open Machine

/-- Settles O22: the advanced state differs in `pc` alone, two zero bytes are the word of `HALT`, and Halted is
terminal. -/
theorem haltStopsTheEngine : Obligations.HaltStopsTheEngine := by
  refine ⟨encodedAs_of_toNat_encode rfl rfl, fun s => ?_, fun s running notTop hi lo => ?_, fun s halted => ?_⟩
  · have advanced : PcAdvanced 2 s { s.advance with run := .halted } := s.toNat_npc
    exact ⟨_, exec_halt s, rfl, rfl, advanced, keepsRegsExcept_of_v_eq rfl [], rfl, ⟨rfl, fun _ => rfl⟩,
      fun _ => rfl, rfl⟩
  · exact step_of_decode_some running (State.fetch_of_zero_bytes notTop hi lo) decodeWord_encode_halt
  · exact step_of_terminal (by simp [halted])

end Sys2Proof
end

section
/-! SUPPORT. The family 42_control_transfer: a jump and a skip set the program counter alone, a call and a return move
one entry between it and the call stack. -/

namespace Sys2Proof

/-- In families 5 and 9 the last nibble is 0 or the word stands for no instruction (R79, R115, R116). -/
theorem decodeWord_eq_none_of_family_five_or_nine {w : Word} (family : w.toNat / 4096 = 5 ∨ w.toNat / 4096 = 9)
    (last : w.toNat % 16 ≠ 0) : decodeWord w = none := by
  obtain five | nine := family
  · simp [decodeWord_eq, decodeByFamily, five, last]
  · simp [decodeWord_eq, decodeByFamily, nine, last]

end Sys2Proof

namespace Sys2Proof.Machine

/-! ### Jumps and skips -/

theorem onlyRegsAndPc_setPc (s : State) (t : Addr) : OnlyRegsAndPc [] s (s.setPc t) :=
  ⟨fun _ _ => rfl, rfl, ⟨rfl, fun _ => rfl⟩, fun _ => rfl, ⟨rfl, rfl⟩, rfl⟩

/-- A skip, taken or not, is a write of the program counter. -/
theorem State.skipIf_advance_eq_setPc (s : State) (c : Bool) :
    s.advance.skipIf c = s.setPc (s.advance.skipIf c).pc := by
  cases c <;> rfl

/-- What the four skips share: `c` is the comparison, `n` the distance it gives (R113 to R116). -/
theorem exec_skip {i : Instr} {s : State} {c : Bool} {n : Nat} (skip : exec i s = .next (s.advance.skipIf c))
    (distance : (if c then 4 else 2) = n) :
    ∃ t, exec i s = .next t ∧ PcAdvanced n s t ∧ OnlyRegsAndPc [] s t := by
  refine ⟨_, skip, ?_, ?_⟩
  · rw [← distance]
    exact s.toNat_skipIf_pc c
  · rw [s.skipIf_advance_eq_setPc c]
    exact onlyRegsAndPc_setPc s _

/-! ### Calls and returns -/

/-- A `RET` that runs on the state a `CALL` left: all that remains of the two is the advance and the return address in
the slot, which a pop does not clear (D13). -/
theorem exec_ret_of_exec_call {s t : State} {nnn : Addr} (free : s.sp.val < 16)
    (call : exec (.call nnn) s = .next t) :
    exec .ret t = .next { s.advance with stack := s.stack.set s.sp.val s.npc } := by
  have pushed := Host.Outcome.next.inj ((execCall_of_lt nnn s free).symm.trans call)
  have live : 0 < t.sp.val := pushed ▸ Nat.succ_pos s.sp.val
  refine (execRet_of_pos t live).trans ?_
  subst pushed
  simp [State.advance, State.setPc]

end Sys2Proof.Machine

namespace Sys2Proof

open Machine

/-- Settles O24: a slot is free or the stack is full, and the push writes the slot at `sp`. -/
theorem callPushesTheReturnAddress : Obligations.CallPushesTheReturnAddress := by
  refine fun nnn => ⟨encodedAs_of_toNat_encode rfl (toNat_encodeNNN 0x2 nnn),
    fun s => ⟨fun free => ?_, fun full => ?_⟩⟩
  · refine ⟨_, execCall_of_lt nnn s free, rfl, rfl, fun k top => ?_, fun k other => ?_, fun _ _ => rfl, rfl,
      fun _ => rfl, ⟨rfl, rfl⟩, rfl⟩
    · simp [top]
    · simp [Vector.getElem_set_ne, other.symm]
  · exact ⟨_, execCall_of_full nnn s full, rfl⟩

/-- Settles O25: an entry is live or the stack is empty, and the pop reads the slot below `sp`. -/
theorem retPopsTheTopEntry : Obligations.RetPopsTheTopEntry := by
  refine ⟨encodedAs_of_toNat_encode rfl rfl, fun s => ⟨fun live => ?_, fun empty => ?_⟩⟩
  · refine ⟨_, execRet_of_pos s live, rfl, fun k top => ?_, fun _ => rfl, fun _ _ => rfl, rfl, fun _ => rfl,
      ⟨rfl, rfl⟩, rfl⟩
    simp [← top]
  · exact ⟨_, execRet_of_empty s empty, rfl⟩

/-- Settles O26: the call leaves a Running state at `nnn` with memory as it was, so the next step is the return. -/
theorem callThenReturnComesBack : Obligations.CallThenReturnComesBack := by
  intro s nnn running free fetched notTop target
  obtain ⟨t, call, pc, -, -, -, -, -, mem, ⟨run, -⟩, -⟩ := ((callPushesTheReturnAddress nnn).2 s).1 free
  have fetchedRet : t.fetch = some (encode .ret) := by
    rw [t.fetch_of_ne (pc ▸ notTop), pc, mem, mem, target]
    rfl
  have first : step s = .next t := (step_of_decode_some running fetched (decodeWord_encode rfl)).trans call
  have second : step t = .next { s.advance with stack := s.stack.set s.sp.val s.npc } :=
    (step_of_decode_some (run.trans running) fetchedRet (decodeWord_encode rfl)).trans (exec_ret_of_exec_call free call)
  refine ⟨_, (run_succ first 1).trans (run_succ second 0), s.toNat_npc, rfl, fun k top => ?_, fun _ _ => rfl, rfl,
    fun _ => rfl, ⟨rfl, rfl⟩, rfl⟩
  simp [top]

/-- Settles O27: the two skips differ in the comparison alone. -/
theorem immediateSkips : Obligations.ImmediateSkips :=
  fun x kk => ⟨encodedAs_of_toNat_encode rfl (toNat_encodeXKK 0x3 x kk),
    encodedAs_of_toNat_encode rfl (toNat_encodeXKK 0x4 x kk),
    fun s => ⟨exec_skip (c := s.reg x == kk) rfl (by simp), exec_skip (c := s.reg x != kk) rfl (by simp)⟩⟩

/-- Settles O28: the skips as in O27, and a last nibble other than 0 leaves the word without a row. -/
theorem registerSkips : Obligations.RegisterSkips := by
  refine fun x y => ⟨encodedAs_of_toNat_encode rfl (toNat_encodeXYD_eq_match_add 0x5 x y 0x0),
    encodedAs_of_toNat_encode rfl (toNat_encodeXYD_eq_match_add 0x9 x y 0x0), fun d pos lt => ⟨?_, ?_⟩,
    fun s => ⟨exec_skip (c := s.reg x == s.reg y) rfl (by simp),
      exec_skip (c := s.reg x != s.reg y) rfl (by simp)⟩⟩
  · refine decodeWord_eq_none_of_family_five_or_nine (.inl ?_) ?_ <;> rw [BitVec.toNat_ofNat] <;> omega
  · refine decodeWord_eq_none_of_family_five_or_nine (.inr ?_) ?_ <;> rw [BitVec.toNat_ofNat] <;> omega

/-- Settles O23: the meaning is a write of the program counter. -/
theorem jpSetsThePc : Obligations.JpSetsThePc :=
  fun nnn => ⟨encodedAs_of_toNat_encode rfl (toNat_encodeNNN 0x1 nnn),
    fun s => ⟨s.setPc nnn, rfl, rfl, onlyRegsAndPc_setPc s nnn⟩⟩

end Sys2Proof
end

section
/-! SUPPORT. The family 43_immediate_and_index: a result written to one register over the advanced state, and the index
register written the same way. -/

namespace Sys2Proof.Machine

/-! ### One register written -/

/-- The 8-bit sum as a number (R121, R131). -/
theorem toNat_addResult (a b : Byte) : (addResult a b).toNat = (a.toNat + b.toNat) % 256 :=
  BitVec.toNat_ofNat _ 8

theorem pcAdvanced_setReg (s : State) (x : Reg) (b : Byte) : PcAdvanced 2 s (s.advance.setReg x b) :=
  s.toNat_npc

theorem onlyRegsAndPc_setReg (s : State) (x : Reg) (b : Byte) : OnlyRegsAndPc [x] s (s.advance.setReg x b) :=
  ⟨keepsRegsExcept_setReg s x b, rfl, ⟨rfl, fun _ => rfl⟩, fun _ => rfl, ⟨rfl, rfl⟩, rfl⟩

/-- What the instructions that write one register and no flag share: `b` is the result (R120, R121, R127 to R130). -/
theorem exec_oneRegister {i : Instr} {s : State} {x : Reg} {b : Byte}
    (write : exec i s = .next (s.advance.setReg x b)) :
    ∃ t, exec i s = .next t ∧ t.reg x = b ∧ PcAdvanced 2 s t ∧ OnlyRegsAndPc [x] s t :=
  ⟨_, write, State.reg_setReg_self s.advance x b, pcAdvanced_setReg s x b, onlyRegsAndPc_setReg s x b⟩

/-- `LDI` on the machine (R120). -/
theorem exec_ldi (x : Reg) (kk : Byte) (s : State) : exec (.ldi x kk) s = .next (s.advance.setReg x kk) := rfl

/-- `ADDI` on the machine: one register is written, and `VF` is not a second one (R121). -/
theorem exec_addi (x : Reg) (kk : Byte) (s : State) :
    exec (.addi x kk) s = .next (s.advance.setReg x (addResult (s.reg x) kk)) := rfl

/-! ### The index register written -/

/-- `LDIX` on the machine: the address is extended with zeros (R122, D23). -/
theorem exec_ldix (nnn : Addr) (s : State) :
    exec (.ldix nnn) s = .next (s.advance.setIndex (nnn.zeroExtend 16)) := rfl

theorem toNat_zeroExtend_addr (nnn : Addr) : (nnn.zeroExtend 16).toNat = nnn.toNat :=
  BitVec.toNat_setWidth_of_le (by decide)

end Sys2Proof.Machine

namespace Sys2Proof

open Machine

/-- Settles O29: each of the two is a write of one register, and the sum is that of the 8-bit adder. -/
theorem immediatesWriteOneRegister : Obligations.ImmediatesWriteOneRegister := by
  refine fun x kk => ⟨encodedAs_of_toNat_encode rfl (toNat_encodeXKK 0x6 x kk),
    encodedAs_of_toNat_encode rfl (toNat_encodeXKK 0x7 x kk), fun s => ⟨exec_oneRegister (exec_ldi x kk s), ?_⟩⟩
  obtain ⟨t, run, result, frame⟩ := exec_oneRegister (exec_addi x kk s)
  exact ⟨t, run, by rw [result, toNat_addResult], frame⟩

/-- Settles O30: the advanced state differs in `I` alone, and an extension with zeros keeps the number. -/
theorem ldixSetsTheIndexRegister : Obligations.LdixSetsTheIndexRegister :=
  fun nnn => ⟨encodedAs_of_toNat_encode rfl (toNat_encodeNNN 0xA nnn),
    fun s => ⟨_, exec_ldix nnn s, toNat_zeroExtend_addr nnn, s.toNat_npc, keepsRegsExcept_of_v_eq rfl [],
      ⟨rfl, fun _ => rfl⟩, fun _ => rfl, ⟨rfl, rfl⟩, rfl⟩⟩

end Sys2Proof
end

section
/-! SUPPORT. The family 44_alu: a logical operation writes one register, an addition or a subtraction its result and
then a flag, which is 1 under one condition and 0 otherwise. -/

namespace Sys2Proof.Machine

/-! ### Results and flags as numbers (R131 to R136) -/

/-- Adding 256 before subtracting keeps the natural-number difference from being cut off at 0. -/
theorem toNat_subResult (a b : Byte) :
    ((subResult a b).toNat : Int) = ((a.toNat : Int) - (b.toNat : Int)) % 256 := by
  have number : (subResult a b).toNat = (a.toNat + 256 - b.toNat) % 256 := BitVec.toNat_ofNat _ 8
  have := b.isLt
  omega

theorem carryFlag_eq_ite (a b : Byte) : carryFlag a b = if a.toNat + b.toNat > 255 then 1 else 0 := rfl

theorem borrowFlag_eq_ite (a b : Byte) : borrowFlag a b = if a.toNat < b.toNat then 1 else 0 := rfl

theorem shrFlag_eq_ite (a : Byte) : shrFlag a = if a.getLsbD 7 = true then 1 else 0 := rfl

theorem shlFlag_eq_ite (a : Byte) : shlFlag a = if a.getLsbD 0 = true then 1 else 0 := rfl

/-! ### The meanings, as one write or as two -/

/-- `MOV` on the machine (R127). -/
theorem exec_mov (x y : Reg) (s : State) : exec (.mov x y) s = .next (s.advance.setReg x (s.reg y)) := rfl

/-- `OR` on the machine (R128). -/
theorem exec_or (x y : Reg) (s : State) :
    exec (.or x y) s = .next (s.advance.setReg x (s.reg x ||| s.reg y)) := rfl

/-- `AND` on the machine (R129). -/
theorem exec_and (x y : Reg) (s : State) :
    exec (.and x y) s = .next (s.advance.setReg x (s.reg x &&& s.reg y)) := rfl

/-- `XOR` on the machine (R130). -/
theorem exec_xor (x y : Reg) (s : State) :
    exec (.xor x y) s = .next (s.advance.setReg x (s.reg x ^^^ s.reg y)) := rfl

/-- `ADD` on the machine (R131). -/
theorem exec_add (x y : Reg) (s : State) : exec (.add x y) s =
    .next (s.advance.setResultAndFlag x (addResult (s.reg x) (s.reg y)) (carryFlag (s.reg x) (s.reg y))) := rfl

/-- `SUB` on the machine: `V[x]` is the minuend (R132). -/
theorem exec_sub (x y : Reg) (s : State) : exec (.sub x y) s =
    .next (s.advance.setResultAndFlag x (subResult (s.reg x) (s.reg y)) (borrowFlag (s.reg x) (s.reg y))) := rfl

/-- `SUBN` on the machine: `V[y]` is the minuend (R134). -/
theorem exec_subn (x y : Reg) (s : State) : exec (.subn x y) s =
    .next (s.advance.setResultAndFlag x (subResult (s.reg y) (s.reg x)) (borrowFlag (s.reg y) (s.reg x))) := rfl

/-- What the flag writers share: `a` is the result, lost when it is written to `VF`, and `f` the flag, written last
(R126, D8). -/
theorem exec_resultAndFlag {i : Instr} {s : State} {x : Reg} {a f : Byte}
    (write : exec i s = .next (s.advance.setResultAndFlag x a f)) :
    ∃ t, exec i s = .next t ∧ (x ≠ .VF → t.reg x = a) ∧ t.reg .VF = f ∧ PcAdvanced 2 s t ∧
      OnlyRegsAndPc [x, .VF] s t :=
  ⟨_, write, State.reg_setResultAndFlag_of_ne _ a f, State.reg_setResultAndFlag_flag _ x a f,
    pcAdvanced_setResultAndFlag s x a f, onlyRegsAndPc_setResultAndFlag s x a f⟩

/-- What `SUB` and `SUBN` share: `a` is the minuend and `b` the subtrahend (R132, R134). -/
theorem exec_subtraction {i : Instr} {s : State} {x : Reg} {a b : Byte}
    (write : exec i s = .next (s.advance.setResultAndFlag x (subResult a b) (borrowFlag a b))) :
    ∃ t, exec i s = .next t ∧ (x ≠ .VF → ((t.reg x).toNat : Int) = ((a.toNat : Int) - (b.toNat : Int)) % 256) ∧
      t.reg .VF = (if a.toNat < b.toNat then 1 else 0) ∧ PcAdvanced 2 s t ∧ OnlyRegsAndPc [x, .VF] s t := by
  obtain ⟨t, run, result, flag, frame⟩ := exec_resultAndFlag write
  exact ⟨t, run, fun notFlag => by rw [result notFlag, toNat_subResult], flag.trans (borrowFlag_eq_ite a b), frame⟩

/-- A flag that is 1 under the condition `c` and 0 otherwise is what `VF` reads after the step, and so tells whether
`c` held (R22, R138). -/
theorem exec_flag_iff {i : Instr} {s : State} {x : Reg} {a f : Byte} {c : Prop} [Decidable c]
    (write : exec i s = .next (s.advance.setResultAndFlag x a f)) (flag : f = if c then 1 else 0) :
    ∃ t, exec i s = .next t ∧ (t.reg .VF = 0 ∨ t.reg .VF = 1) ∧ (t.reg .VF = 1 ↔ c) := by
  obtain ⟨t, run, -, written, -⟩ := exec_resultAndFlag write
  refine ⟨t, run, ?_⟩
  rw [written, flag]
  by_cases holds : c <;> simp [holds]

end Sys2Proof.Machine

namespace Sys2Proof

open Machine

/-- Settles O31: each of the four is a write of one register, and a bit of the result is the operation on the bits of
the operands. -/
theorem logicalOperations : Obligations.LogicalOperations := by
  refine fun x y => ⟨encodedAs_of_toNat_encode rfl (toNat_encodeXYD_eq_match_add 0x8 x y 0x0),
    encodedAs_of_toNat_encode rfl (toNat_encodeXYD_eq_match_add 0x8 x y 0x1),
    encodedAs_of_toNat_encode rfl (toNat_encodeXYD_eq_match_add 0x8 x y 0x2),
    encodedAs_of_toNat_encode rfl (toNat_encodeXYD_eq_match_add 0x8 x y 0x3),
    fun s => ⟨exec_oneRegister (exec_mov x y s), ?_, ?_, ?_⟩⟩
  · obtain ⟨t, run, result, frame⟩ := exec_oneRegister (exec_or x y s)
    exact ⟨t, run, fun k => by rw [result, BitVec.getLsbD_or], frame⟩
  · obtain ⟨t, run, result, frame⟩ := exec_oneRegister (exec_and x y s)
    exact ⟨t, run, fun k => by rw [result, BitVec.getLsbD_and], frame⟩
  · obtain ⟨t, run, result, frame⟩ := exec_oneRegister (exec_xor x y s)
    exact ⟨t, run, fun k => by rw [result, BitVec.getLsbD_xor, Bool.bne_eq_xor], frame⟩

/-- Settles O32: the result is the 8-bit sum, and the flag, written after it, is the carry out of the exact sum. -/
theorem addWritesSumAndCarry : Obligations.AddWritesSumAndCarry := by
  refine fun x y => ⟨encodedAs_of_toNat_encode rfl (toNat_encodeXYD_eq_match_add 0x8 x y 0x4), fun s => ?_⟩
  obtain ⟨t, run, result, flag, frame⟩ := exec_resultAndFlag (exec_add x y s)
  exact ⟨t, run, fun notFlag => by rw [result notFlag, toNat_addResult], flag.trans (carryFlag_eq_ite _ _), frame⟩

/-- Settles O33: `SUB` and `SUBN` are one subtraction with the operands exchanged. -/
theorem subtractionsWriteDifferenceAndBorrow : Obligations.SubtractionsWriteDifferenceAndBorrow :=
  fun x y => ⟨encodedAs_of_toNat_encode rfl (toNat_encodeXYD_eq_match_add 0x8 x y 0x5),
    encodedAs_of_toNat_encode rfl (toNat_encodeXYD_eq_match_add 0x8 x y 0x7),
    fun s => ⟨exec_subtraction (exec_sub x y s), exec_subtraction (exec_subn x y s)⟩⟩

/-- Settles O50: each of the five flags is 1 under its condition and 0 otherwise. -/
theorem flagPropertiesOfTheAlu : Obligations.FlagPropertiesOfTheAlu :=
  fun x y s _ => ⟨exec_flag_iff (exec_add x y s) (carryFlag_eq_ite _ _),
    exec_flag_iff (exec_sub x y s) (borrowFlag_eq_ite _ _),
    exec_flag_iff (exec_shr x y s) (shrFlag_eq_ite _),
    exec_flag_iff (exec_shl x y s) (shlFlag_eq_ite _),
    exec_flag_iff (exec_subn x y s) (borrowFlag_eq_ite _ _)⟩

end Sys2Proof
end

section
/-! SUPPORT. The family 45_delegated: which words are routed to a collaborator, and what the core does with an answer
that it refuses. -/

namespace Sys2Proof

open Machine

/-! ### The words of the delegated instructions (R76, R80, R140) -/

/-- Families B to F are whole: the family nibble alone chooses the request, and every field is an operand of it
(R80, D10). -/
theorem exists_request_of_family_ge_eleven {w : Word} (family : 11 ≤ w.toNat / 4096) :
    ∃ req, decodeWord w = some (requestInstr req) := by
  have : w.toNat < 65536 := w.isLt
  obtain family | family | family | family | family : w.toNat / 4096 = 11 ∨ w.toNat / 4096 = 12 ∨
      w.toNat / 4096 = 13 ∨ w.toNat / 4096 = 14 ∨ w.toNat / 4096 = 15 := by omega
  · exact ⟨.jpo (fieldNNN w), decodeWord_eq_some_iff.2 ⟨encodeNNN_fieldNNN family, rfl⟩⟩
  · exact ⟨.rnd (operandX w) (fieldKK w), decodeWord_eq_some_iff.2 ⟨encodeXKK_fields family, rfl⟩⟩
  · exact ⟨.drw (operandX w) (operandY w) (fieldD w),
      decodeWord_eq_some_iff.2 ⟨encodeXYD_fields family (toNat_fieldD w).symm, rfl⟩⟩
  · exact ⟨.key (operandX w) (fieldKK w), decodeWord_eq_some_iff.2 ⟨encodeXKK_fields family, rfl⟩⟩
  · exact ⟨.ext (operandX w) (fieldKK w), decodeWord_eq_some_iff.2 ⟨encodeXKK_fields family, rfl⟩⟩

/-- Family 0 is delegated but for `HALT` and `RET`: what is left is `CLS` and the words of `SYS` (R77). -/
theorem exists_request_of_family_zero {w : Word} (family : w.toNat < 4096) (notHalt : w ≠ 0x0000)
    (notRet : w ≠ 0x00EE) : ∃ req, decodeWord w = some (requestInstr req) := by
  by_cases isCls : w = 0x00E0
  · exact ⟨.cls, isCls ▸ decodeWord_encode (i := .cls) rfl⟩
  · exact ⟨.sys (fieldNNN w), decodeWord_of_family_zero (Nat.div_eq_of_lt family) notHalt isCls notRet⟩

/-- A word that decodes to a delegated instruction is that instruction's own word, whose family nibble is B to F unless
it is `CLS` or `SYS`. -/
theorem family_of_decodeWord_requestInstr {w : Word} {req : CollabRequest}
    (h : decodeWord w = some (requestInstr req)) :
    11 ≤ w.toNat / 4096 ∨ (w.toNat < 4096 ∧ w ≠ 0x0000 ∧ w ≠ 0x00EE) := by
  obtain rfl := encode_of_decodeWord h
  cases req with
  | cls => exact .inr (by decide)
  | sys nnn =>
    obtain ⟨family, notHalt, -, notRet⟩ := (decodeWord_eq_sys_iff _).1 ⟨nnn, h⟩
    exact .inr ⟨family, notHalt, notRet⟩
  | jpo _ | rnd _ _ | drw _ _ _ | key _ _ | ext _ _ => exact .inl (by simp [requestInstr, encode])

end Sys2Proof

namespace Sys2Proof.Machine

/-! ### The refused answer (R144) -/

/-- An answer that is refused cannot have been committed: a committed one has all its writes in bounds. -/
theorem State.delegate_of_refused {s : State} {req : CollabRequest} (refused : s.AnswerRefused req) :
    s.delegate req = s.takeFault .outOfBounds := by
  obtain ⟨ws, answer, bounded, -⟩ | ⟨-, fault⟩ := s.delegate_cases req
  · obtain reported | ⟨ws', answer', outside⟩ := refused
    · exact nomatch answer.symm.trans reported
    · obtain rfl : ws = ws' := CollabAnswer.done.inj (answer.symm.trans answer')
      exact absurd bounded (by simp [(all_writeInBounds_eq_false_iff ws).2 outside])
  · exact fault

end Sys2Proof.Machine

namespace Sys2Proof

open Machine

/-- Settles O14: each delegated instruction has its family to itself, except that `CLS` and `SYS` share family 0 with
`HALT` and `RET`. -/
theorem delegatedWordsAreRouted : Obligations.DelegatedWordsAreRouted := by
  refine fun w => ⟨fun ⟨_, decoded⟩ => family_of_decodeWord_requestInstr decoded, ?_⟩
  rintro (family | ⟨family, notHalt, notRet⟩)
  · exact exists_request_of_family_ge_eleven family
  · exact exists_request_of_family_zero family notHalt notRet

/-- Settles O40: a refused answer is fault entry, and any other answer is committed, which no write to `RUN` or `FAULT`
is part of. -/
theorem collaboratorOutOfBoundsCommitsNothing : Obligations.CollaboratorOutOfBoundsCommitsNothing := by
  refine ⟨fun req s refused => ⟨_, exec_requestInstr req s, State.delegate_of_refused refused⟩, fun req s t h => ?_⟩
  obtain rfl : s.delegate req = t := Host.Outcome.next.inj ((exec_requestInstr req s).symm.trans h)
  exact (s.delegate_status req).imp_right And.right

end Sys2Proof
end

section
/-! SUPPORT. The family 60_exceptions: which words select no row of the table, and that an instruction records a fault
if and only if it has that fault's cause. -/

namespace Sys2Proof

open Machine

/-! ### The words without a row (R79) -/

/-- The last nibbles of family 8 that no row of the ALU has (R76, R79). -/
theorem decodeWord_eq_none_of_family_eight {w : Word} (family : w.toNat / 4096 = 8)
    (last : w.toNat % 16 ∈ [8, 9, 10, 11, 12, 13, 15]) : decodeWord w = none := by
  rw [decodeWord_eq, decodeByFamily, family]
  generalize w.toNat % 16 = d at last
  fin_cases last <;> rfl

/-- Only families 5, 8 and 9 have an arm without an instruction. The arms of the decoder come in the order of the
families, `h_1` for family 0; `h_17` is a family above F, which no word has. -/
theorem unmatched_of_decodeWord_eq_none {w : Word} (h : decodeWord w = none) :
    (w.toNat / 4096 = 5 ∧ w.toNat % 16 ≠ 0) ∨ (w.toNat / 4096 = 9 ∧ w.toNat % 16 ≠ 0) ∨
    (w.toNat / 4096 = 8 ∧ w.toNat % 16 ∈ [8, 9, 10, 11, 12, 13, 15]) := by
  have isWord := w.isLt
  rw [decodeWord_eq] at h
  unfold decodeByFamily at h
  split at h
  case h_1 => split_ifs at h
  case h_6 family =>
    split_ifs at h with last
    exact .inl ⟨family, last⟩
  case h_10 family =>
    split_ifs at h with last
    exact .inr (.inl ⟨family, last⟩)
  case h_9 family =>
    split at h
    case h_10 =>
      refine .inr (.inr ⟨family, ?_⟩)
      simp only [imp_false, List.mem_cons, List.not_mem_nil, or_false] at *
      omega
    all_goals cases h
  case h_17 =>
    simp only [imp_false] at *
    omega
  all_goals cases h

end Sys2Proof

namespace Sys2Proof.Machine

/-! ### An instruction records a fault exactly on its cause (R156 to R158) -/

/-- An instruction that has the cause of a fault enters that fault. -/
theorem exec_of_instrFault {s : State} {i : Instr} {reason : FaultRecord} (cause : InstrFault s i reason) :
    exec i s = .next (s.takeFault reason) := by
  cases cause with
  | stackOverflow call full => exact call ▸ execCall_of_full _ s full
  | stackUnderflow ret empty => exact ret ▸ execRet_of_empty s empty
  | outOfBounds delegated refused =>
    rw [delegated, exec_requestInstr, State.delegate_of_refused refused]

/-- An instruction that starts with no fault recorded and ends with one has that fault's cause. -/
theorem instrFault_of_exec_fault_ne_none {i : Instr} {s t : State} (noFault : s.fault = .none)
    (h : exec i s = .next t) (isFault : t.fault ≠ .none) : InstrFault s i t.fault := by
  cases execStatus_of_exec h with
  | keeps status => exact absurd (status.2.trans noFault) isFault
  | halts halt _ =>
    subst halt
    obtain rfl := Host.Outcome.next.inj ((exec_halt s).symm.trans h)
    exact absurd noFault isFault
  | faults cause => exact cause

theorem fault_eq_iff_instrFault {i : Instr} {s t : State} {reason : FaultRecord} (noFault : s.fault = .none)
    (h : exec i s = .next t) (isFault : reason ≠ .none) : t.fault = reason ↔ InstrFault s i reason := by
  constructor
  · rintro rfl
    exact instrFault_of_exec_fault_ne_none noFault h isFault
  · intro cause
    obtain rfl := Host.Outcome.next.inj ((exec_of_instrFault cause).symm.trans h)
    rfl

theorem instrFault_stackOverflow_iff {s : State} {i : Instr} :
    InstrFault s i .stackOverflow ↔ (∃ nnn, i = .call nnn) ∧ s.sp.val = 16 := by
  constructor
  · intro cause
    cases cause with
    | stackOverflow call full => exact ⟨⟨_, call⟩, full⟩
  · rintro ⟨⟨_, call⟩, full⟩
    exact .stackOverflow call full

theorem instrFault_stackUnderflow_iff {s : State} {i : Instr} :
    InstrFault s i .stackUnderflow ↔ i = .ret ∧ s.sp.val = 0 := by
  constructor
  · intro cause
    cases cause with
    | stackUnderflow ret empty => exact ⟨ret, empty⟩
  · rintro ⟨ret, empty⟩
    exact .stackUnderflow ret empty

end Sys2Proof.Machine

namespace Sys2Proof

open Machine

/-- Settles O12: the decoder has no arm for those words and one for every other, and the step has a fault of its own for
them. -/
theorem unmatchedWordFaults : Obligations.UnmatchedWordFaults := by
  refine ⟨fun w => ⟨unmatched_of_decodeWord_eq_none, ?_⟩, fun s w => step_of_decode_none⟩
  rintro (⟨five, last⟩ | ⟨nine, last⟩ | ⟨eight, last⟩)
  · exact decodeWord_eq_none_of_family_five_or_nine (.inl five) last
  · exact decodeWord_eq_none_of_family_five_or_nine (.inr nine) last
  · exact decodeWord_eq_none_of_family_eight eight last

/-- Settles O51: a recorded fault has its cause, the causes of the two stack faults are `CALL` at 16 and `RET` at 0, and
an instruction with a cause does nothing but enter the fault. -/
theorem stackFaultsHaveOneCauseEach : Obligations.StackFaultsHaveOneCauseEach := by
  intro i s t noFault h
  refine ⟨(fault_eq_iff_instrFault noFault h (by simp)).trans instrFault_stackOverflow_iff,
    (fault_eq_iff_instrFault noFault h (by simp)).trans instrFault_stackUnderflow_iff, fun stackFault => ?_⟩
  have isFault : t.fault ≠ .none := by
    obtain overflow | underflow := stackFault
    · simp [overflow]
    · simp [underflow]
  have enters := exec_of_instrFault (instrFault_of_exec_fault_ne_none noFault h isFault)
  have entered : s.takeFault t.fault = t := Host.Outcome.next.inj (enters.symm.trans h)
  have faulted : t.run = .faulted := entered ▸ rfl
  refine ⟨faulted, ?_⟩
  rw [faulted]
  exact entered.symm

end Sys2Proof
end

section
/-! SUPPORT. The family 70_reset_and_hazards and what is left of the others: what a host may do before launch keeps a
state ready to launch, an empty collaborator port leaves the advance alone, and a collaborator's store is fetched. -/

namespace Sys2Proof.Machine

/-! ### Before launch (R176, R179) -/

/-- What holds from reset to launch: Running, no fault, memory in its canonical form. -/
def State.ReadyToLaunch (s : State) : Prop := s.run = .running ∧ s.fault = .none ∧ Memory.wf s.mem

theorem State.ReadyToLaunch.inv {s : State} (ready : s.ReadyToLaunch) : s.Inv := by
  obtain ⟨running, noFault, wf⟩ := ready
  exact ⟨by simp [State.FaultRecordAgrees, running, noFault], wf⟩

theorem reset_readyToLaunch : State.reset.ReadyToLaunch := ⟨rfl, rfl, Memory.wf_nil⟩

/-- A load that is not refused keeps memory canonical; one of no byte writes nothing, wherever it is aimed (R66). -/
theorem Memory.wf_writeBytes_of_loadInBounds {m : Memory} (wf : Memory.wf m) {off : Nat} {bs : List Byte}
    (fits : loadInBounds off bs.length = true) : Memory.wf (Memory.writeBytes m off bs) := by
  obtain empty | fits := Bool.or_eq_true_iff.1 fits
  · obtain rfl : bs = [] := List.length_eq_zero_iff.1 (eq_of_beq empty)
    exact wf
  · exact Memory.wf_writeBytes wf bs ((inBounds_iff off bs.length).1 fits)

theorem State.hostAct_loadBytes (s : State) (off : Nat) (bs : List Byte) : s.hostAct (.loadBytes off bs) =
    if loadInBounds off bs.length then some { s with mem := Memory.writeBytes s.mem off bs } else none := by
  simp only [State.hostAct, State.loadBytes]
  split_ifs <;> rfl

/-- A load of words is the load of their bytes (R65). -/
theorem State.hostAct_loadInstructions (s : State) (off : Nat) (ws : List Word) :
    s.hostAct (.loadInstructions off ws) = s.hostAct (.loadBytes off (bytesOfWords ws)) := rfl

theorem State.ReadyToLaunch.hostAct_loadBytes {s t : State} (ready : s.ReadyToLaunch) {off : Nat} {bs : List Byte}
    (h : s.hostAct (.loadBytes off bs) = some t) : t.ReadyToLaunch := by
  obtain ⟨running, noFault, wf⟩ := ready
  rw [State.hostAct_loadBytes] at h
  split_ifs at h with fits
  obtain rfl := Option.some.inj h
  exact ⟨running, noFault, Memory.wf_writeBytes_of_loadInBounds wf fits⟩

/-- Of the host's actions only the loads write memory, and none reaches `RUN` or `FAULT`. -/
theorem State.ReadyToLaunch.hostAct {s t : State} (ready : s.ReadyToLaunch) {a : HostAction}
    (h : s.hostAct a = some t) : t.ReadyToLaunch := by
  cases a with
  | loadInstructions off ws => exact ready.hostAct_loadBytes ((s.hostAct_loadInstructions off ws).symm.trans h)
  | loadBytes off bs => exact ready.hostAct_loadBytes h
  | presetReg _ _ | presetIndex _ | presetSp _ | presetSlot _ _ | attach _ =>
    obtain rfl := Option.some.inj h
    exact ready

theorem State.ReadyToLaunch.hostActs {s t : State} (ready : s.ReadyToLaunch) {acts : List HostAction}
    (h : s.hostActs acts = some t) : t.ReadyToLaunch := by
  induction acts generalizing s with
  | nil =>
    obtain rfl := Option.some.inj h
    exact ready
  | cons a rest ih =>
    simp only [State.hostActs] at h
    split at h
    · exact ih (ready.hostAct ‹_›) h
    · cases h

/-- The launch writes the program counter alone (R178). -/
theorem State.ReadyToLaunch.launch {s : State} (ready : s.ReadyToLaunch) (entry : Addr) :
    (s.launch entry).ReadyToLaunch := ready

/-! ### Nothing attached (R145, D11) -/

theorem State.collabAnswer_of_detached {s : State} (detached : s.collab = .detached) (req : CollabRequest) :
    s.collabAnswer req = .done [] := by
  simp only [State.collabAnswer, detached]

theorem State.consumePort_of_detached {s : State} (detached : s.collab = .detached) : s.consumePort = s := by
  cases s
  cases detached
  rfl

/-- `COLLAB_NULL` leaves the advance alone. -/
theorem State.delegate_of_detached {s : State} (detached : s.collab = .detached) (req : CollabRequest) :
    s.delegate req = s.setPc s.npc :=
  (State.delegate_of_bounded (State.collabAnswer_of_detached detached req) rfl).trans
    (State.consumePort_of_detached (s := s.advance) detached)

/-! ### The fetch of two given bytes (R71) -/

theorem State.fetch_of_reads {s : State} {hi lo : Byte} (inMemory : s.pc.toNat + 2 ≤ 4096)
    (high : Memory.read s.mem s.pc.toNat = hi) (low : Memory.read s.mem (s.pc.toNat + 1) = lo) :
    s.fetch = some (wordOfBytes hi lo) := by
  rw [← high, ← low]
  exact Memory.read2_of_le s.mem inMemory

end Sys2Proof.Machine

namespace Sys2Proof

open Machine

/-- Settles O46: reset is ready to launch, every host action keeps that, and the launch itself writes `pc` alone. -/
theorem everyLaunchStateMeetsInvariant : Obligations.EveryLaunchStateMeetsInvariant := by
  intro acts entry s h
  obtain ⟨loaded, acted, rfl⟩ := Option.map_eq_some_iff.1 h
  have ready := (reset_readyToLaunch.hostActs acted).launch entry
  have inv := ready.inv
  obtain ⟨running, noFault, -⟩ := ready
  exact ⟨running, noFault, rfl, inv⟩

/-- Settles O38: with nothing attached there is no write to commit over the advance. -/
theorem nullCollaboratorOnlyAdvances : Obligations.NullCollaboratorOnlyAdvances := by
  intro req s detached
  have advances : exec (requestInstr req) s = .next (s.setPc s.npc) :=
    (exec_requestInstr req s).trans (congrArg Host.Outcome.next (State.delegate_of_detached detached req))
  exact ⟨State.collabAnswer_of_detached detached req, _, advances, s.toNat_npc, onlyRegsAndPc_setPc s s.npc⟩

/-- Settles O41: the two bytes are committed where the advanced `pc` points, and the next fetch reads them there. -/
theorem storedInstructionIsFetchedNext : Obligations.StoredInstructionIsFetchedNext := by
  intro s req hi lo running inMemory fetched wf answer
  have inRange : ∀ j b, CollabWrite.mem j b ∈ [.mem (s.pc.toNat + 2) hi, .mem (s.pc.toNat + 3) lo] → j < 4096 := by
    simp only [List.mem_cons, CollabWrite.mem.injEq, List.not_mem_nil, or_false]
    omega
  obtain ⟨t, commits, -, ⟨run, -⟩, -, -, stored, -, -, -, -, pcKept⟩ :=
    collaboratorWritesAreCommitted req s _ answer (by simp) inRange
  have advanced : PcAdvanced 2 s t := pcKept (by simp)
  have pc : t.pc.toNat = s.pc.toNat + 2 := advanced.trans (Nat.mod_eq_of_lt (by omega))
  have high : Memory.read t.mem t.pc.toNat = hi := pc ▸ stored (s.pc.toNat + 2) hi (by simp) (by simp)
  have low : Memory.read t.mem (t.pc.toNat + 1) = lo := pc ▸ stored (s.pc.toNat + 3) lo (by simp) (by simp)
  exact ⟨t, (step_of_decode_some running fetched (decodeWord_encode wf)).trans commits, run.trans running, advanced,
    State.fetch_of_reads (by omega) high low⟩

end Sys2Proof
end
